-- ==== Sys2Proof/Word.lean ====
section
/-! DEFINITION. The words of the block: bytes, register addresses, bus addresses, command words (00_scope.md R8, R10). -/

namespace Sys2Proof

/-- A byte: a payload byte, a level, a gain code, an operand field (`u8`, R10). -/
abbrev Byte := BitVec 8

/-- The 7-bit address of one chip register (`REG_ADDR_WIDTH`, R8; 90_conflicts.md C3). -/
abbrev RegAddr := BitVec 7

/-- The 7-bit two-wire bus address (`u7`, 10_state.md R21). -/
abbrev BusAddr := BitVec 7

/-- A 32-bit command word (`CMD_WIDTH`, R8; 30_encoding.md R70). -/
abbrev CmdWord := BitVec 32

/-- A valid channel index, an integer in [0, 24) (`CHANNEL_COUNT`, R8; ChannelIndex, R13). -/
abbrev Channel := Fin 24

end Sys2Proof
end

