-- ==== Sys2Proof/Syntax.lean ====
section
/-! DEFINITION. The commands, one constructor per row of spec/opcode_table.json (30_encoding.md R73). -/

namespace Sys2Proof

/-- A decoded command word. Each operand is the operand field `A` or `B` of the word, an unsigned byte (R71, R72). -/
inductive Instr where
  /-- `INIT c`: `B = c`, a current in mA (R74, R131). -/
  | init (current : Byte)
  /-- `SET_CHANNEL ch, v`: `A = ledno`, `B = ledgain` (R75, R140). -/
  | setChannel (ch level : Byte)
  /-- `SET_CHANNELS n`: `A = n`, the number of entry words that follow (R76, R145). -/
  | setChannels (count : Byte)
  /-- `ENTRY ch, v`: `A = ledno`, `B = ledgain` (R77, R146, R149). -/
  | entry (ch level : Byte)
  /-- `Q_PWM_REG ch`: `A = ch` (R78, R107). -/
  | qPwmReg (ch : Byte)
  /-- `Q_GAIN_REG ch`: `A = ch` (R78, R108). -/
  | qGainReg (ch : Byte)
  /-- `Q_WITH_AI a`: `A = a`, of which `A[7]` must be 0 (R78, R109; see `Instr.WellFormed`). -/
  | qWithAi (a : Byte)
  /-- `Q_GAIN_CODE c`: `B = c`, a current in mA (R78, R174). -/
  | qGainCode (current : Byte)
  deriving DecidableEq, Repr

end Sys2Proof
end

