-- ==== Sys2Proof/WellFormed.lean ====
section
/-! DEFINITION. Which terms of `Instr` an encoding exists for (30_encoding.md R72, R73). -/

namespace Sys2Proof

/-- A command is well formed when its operands fit the row's fields. Every operand is a whole byte field but the
register address of `Q_WITH_AI`, whose `A[7]` must be 0 (R72, R73, R109, D23). -/
def Instr.wellFormed : Instr → Bool
  | .init _ => true
  | .setChannel _ _ => true
  | .setChannels _ => true
  | .entry _ _ => true
  | .qPwmReg _ => true
  | .qGainReg _ => true
  | .qWithAi a => a.toNat < 128
  | .qGainCode _ => true

/-- `Instr.wellFormed` as a proposition. -/
abbrev Instr.WellFormed (i : Instr) : Prop := i.wellFormed = true

end Sys2Proof
end

