-- ==== Sys2Proof/Decode.lean ====
section
/-! DEFINITION. Decoding a command word, total, and encoding one (30_encoding.md R71 to R82). -/

namespace Sys2Proof

/-- A row of the opcode map: the pair `match` / `mask` over the whole word (R73). -/
structure Row where
  pattern : CmdWord
  mask : CmdWord
  deriving DecidableEq, Repr

/-- A word selects a row when `(word & mask) = match` (R73). -/
def Row.selects (r : Row) (w : CmdWord) : Bool := w &&& r.mask == r.pattern

/-- The row of `INIT` (R73, R74). -/
def rowInit : Row := ⟨0x10000000#32, 0xFFFFFF00#32⟩
/-- The row of `SET_CHANNEL` (R73, R75). -/
def rowSetChannel : Row := ⟨0x20000000#32, 0xFFFF0000#32⟩
/-- The row of `SET_CHANNELS` (R73, R76). -/
def rowSetChannels : Row := ⟨0x30000000#32, 0xFFFF00FF#32⟩
/-- The row of `ENTRY` (R73, R77). -/
def rowEntry : Row := ⟨0x40000000#32, 0xFFFF0000#32⟩
/-- The row of `Q_PWM_REG` (R73, R78). -/
def rowQPwmReg : Row := ⟨0x80000000#32, 0xFFFF00FF#32⟩
/-- The row of `Q_GAIN_REG` (R73, R78). -/
def rowQGainReg : Row := ⟨0x90000000#32, 0xFFFF00FF#32⟩
/-- The row of `Q_WITH_AI` (R73, R78). -/
def rowQWithAi : Row := ⟨0xA0000000#32, 0xFFFF80FF#32⟩
/-- The row of `Q_GAIN_CODE` (R73, R78). -/
def rowQGainCode : Row := ⟨0xB0000000#32, 0xFFFFFF00#32⟩

/-- The whole opcode map (R73). -/
def opcodeMap : List Row :=
  [rowInit, rowSetChannel, rowSetChannels, rowEntry, rowQPwmReg, rowQGainReg, rowQWithAi, rowQGainCode]

/-- `OP`, bits [31:28] (R71). -/
def fieldOp (w : CmdWord) : BitVec 4 := w.extractLsb' 28 4
/-- `RSVD`, bits [27:16] (R71). -/
def fieldRsvd (w : CmdWord) : BitVec 12 := w.extractLsb' 16 12
/-- `A`, bits [15:8] (R71). -/
def fieldA (w : CmdWord) : Byte := w.extractLsb' 8 8
/-- `B`, bits [7:0] (R71). -/
def fieldB (w : CmdWord) : Byte := w.extractLsb' 0 8

/-- Why a word matches no row (the three bullets of R81). The block does not report which: the names are the
model's (log 17). -/
inductive Illegal where
  /-- `OP` is in 0x0, 0x5, 0x6, 0x7, 0xC, 0xD, 0xE, 0xF. -/
  | reservedOpcode
  /-- `RSVD` is not 0. -/
  | reservedBits
  /-- A "must be 0" operand bit is 1. -/
  | operandBits
  deriving DecidableEq, Repr

/-- What `Decode(word)` returns: a row's command, or `ILLEGAL` (R79). -/
inductive Decoded where
  | command (i : Instr)
  | illegal (why : Illegal)
  deriving DecidableEq, Repr

/-- `OP` is one that R73 assigns to a row. -/
def assignedOp (op : BitVec 4) : Bool :=
  op == 0x1#4 || op == 0x2#4 || op == 0x3#4 || op == 0x4#4 || op == 0x8#4 || op == 0x9#4 || op == 0xA#4 || op == 0xB#4

/-- Which bullet of R81 a word that matches no row falls under, the first that applies. -/
def illegalReason (w : CmdWord) : Illegal :=
  if !assignedOp (fieldOp w) then .reservedOpcode
  else if fieldRsvd w != 0 then .reservedBits
  else .operandBits

/-- `Decode(word)`: the command of the row the word selects, or `ILLEGAL` (R79). Every operand is zero-extended, none
is scaled (R72). -/
def decode (w : CmdWord) : Decoded :=
  if rowInit.selects w then .command (.init (fieldB w))
  else if rowSetChannel.selects w then .command (.setChannel (fieldA w) (fieldB w))
  else if rowSetChannels.selects w then .command (.setChannels (fieldA w))
  else if rowEntry.selects w then .command (.entry (fieldA w) (fieldB w))
  else if rowQPwmReg.selects w then .command (.qPwmReg (fieldA w))
  else if rowQGainReg.selects w then .command (.qGainReg (fieldA w))
  else if rowQWithAi.selects w then .command (.qWithAi (fieldA w))
  else if rowQGainCode.selects w then .command (.qGainCode (fieldB w))
  else .illegal (illegalReason w)

/-- The word with the given fields, each zero-extended and at its place, and `RSVD = 0` (R71). -/
def wordOf (op : BitVec 4) (a b : Byte) : CmdWord :=
  op.setWidth 32 <<< 28 ||| a.setWidth 32 <<< 8 ||| b.setWidth 32

/-- The word of a command (R74 to R78). -/
def encode : Instr → CmdWord
  | .init c => wordOf 0x1#4 0 c
  | .setChannel ch v => wordOf 0x2#4 ch v
  | .setChannels n => wordOf 0x3#4 n 0
  | .entry ch v => wordOf 0x4#4 ch v
  | .qPwmReg ch => wordOf 0x8#4 ch 0
  | .qGainReg ch => wordOf 0x9#4 ch 0
  | .qWithAi a => wordOf 0xA#4 a 0
  | .qGainCode c => wordOf 0xB#4 0 c

/-- The row of the opcode map that a command belongs to (R73). -/
def Instr.row : Instr → Row
  | .init _ => rowInit
  | .setChannel _ _ => rowSetChannel
  | .setChannels _ => rowSetChannels
  | .entry _ _ => rowEntry
  | .qPwmReg _ => rowQPwmReg
  | .qGainReg _ => rowQGainReg
  | .qWithAi _ => rowQWithAi
  | .qGainCode _ => rowQGainCode

/-- The command word whose bits, numbered as opcode_table.json numbers them, are `w`: a word arrives whole, so it has
no byte order (R70), and every bit above `nbits` is 0. -/
def tableWord (nbits w : Nat) : CmdWord := BitVec.ofNat 32 (w % 2 ^ nbits)

/-- The instruction the decoder reads from an instruction whose bits are `w`; none where it refuses. -/
def decodeTableWord (nbits w : Nat) : Option Instr :=
  match decode (tableWord nbits w) with
  | .command i => some i
  | .illegal _ => none

end Sys2Proof
end

