-- ==== Sys2Proof/Config.lean ====
section
/-! DEFINITION. What an implementation fixes: the parameters of 00_scope.md R8. The two OPEN parameters have no body. -/

namespace Sys2Proof.Config

/-- The identity string of the block (R2, D1). -/
def identity : String := "libPCA9956B-core/v7"

/-- `CHANNEL_COUNT` (R8). -/
def channelCount : Nat := 24

/-- `MODE1_ADDR` (R100). -/
def mode1Addr : RegAddr := 0x00#7

/-- `PWM_BASE`, the address of channel 0's duty register (R100). -/
def pwmBase : RegAddr := 0x0A#7

/-- `GAIN_BASE`, the address of channel 0's gain register (R100). -/
def gainBase : RegAddr := 0x22#7

/-- `AI_BIT`, the auto-increment flag of the address byte (R100, R43). -/
def aiBit : Byte := 0x80#8

/-- `MAX_CURRENT_MA` (R8). -/
def maxCurrentMa : Nat := 57

/-- `MAX_GAIN` (R8). -/
def maxGain : Nat := 255

/-- How many registers the chip's register space has (R40). -/
def regSpaceSize : Nat := 128

/-- The last register that the auto-increment scope of MODE1_AI_ALL covers (`AI_SCOPE_COVERS`, R55). -/
def lastScopeReg : Nat := 0x39

/-- OPEN parameter `BUS_ADDR`, given at construction (R8, R9, D6). It has no body: nothing can be proved of its value.
Log 4. -/
opaque busAddr : BusAddr

/-- OPEN parameter `MODE1_AI_ALL`, the mode-register pattern (R8, R9, D10, N1). It has no body: nothing can be proved
of its value. Log 4. -/
opaque mode1AiAll : Byte

end Sys2Proof.Config
end

