-- ==== Sys2Proof/Machine/State.lean ====
section
/-! DEFINITION. The state of the block, its environment and its observation, and the state after reset (10_state.md). -/

namespace Sys2Proof.Machine

/-- `MODE`, the sequencing state (R23). -/
inductive Mode where
  /-- Ready for a command header word. -/
  | idle
  /-- Inside a `SET_CHANNELS` command, ready for an entry word. -/
  | batch
  /-- A transport call or a sequence of transactions is in progress. -/
  | exec
  deriving DecidableEq, Repr

/-- The transport call of a transaction: BEGIN, WRITE or END (R25, R47). `Option Phase` with `none` for NONE is XPHASE. -/
inductive Phase where
  | callBegin
  | callWrite
  | callEnd
  deriving DecidableEq, Repr

/-- A response of the transport, a draw (R12): `accepted` is ACK of `TransportBegin` and OK of the other two calls,
`failed` is NACK of `TransportBegin` and FAIL of the other two. -/
inductive Answer where
  | accepted
  | failed
  deriving DecidableEq, Repr

/-- A transport call with its arguments (R12, R48 to R50). -/
inductive Call where
  /-- `TransportBegin(addr7)`. -/
  | transportBegin (addr : BusAddr)
  /-- `TransportWrite(bytes)`. -/
  | transportWrite (bytes : List Byte)
  /-- `TransportEnd()`. -/
  | transportEnd
  deriving DecidableEq, Repr

/-- What `BusXact` returns (R47). -/
inductive XactResult where
  | ok
  | fail (p : Phase)
  deriving DecidableEq, Repr

/-- Which step of which command called `BusXact` and goes on when it returns (R131, R140, R146). -/
inductive Caller where
  /-- Transaction 1 of `INIT`; `g` is the gain code of transaction 2 (R132). -/
  | initMode (g : Byte)
  /-- Transaction 2 of `INIT` (R133). -/
  | initGain
  /-- The transaction of `SET_CHANNEL` (R140). -/
  | setChannel
  /-- The transaction of a batch entry (R146). -/
  | entry
  deriving DecidableEq, Repr

/-- The open transaction: `bytes = [addr_byte] ++ payload` (R44, R47) and who waits for it. -/
structure Xact where
  addrByte : Byte
  payload : List Byte
  caller : Caller
  deriving DecidableEq, Repr

/-- The kind of failure of a batch entry (R29). -/
inductive Cause where
  | invalidChannel
  | busTransactionFailed
  | illegalCommand
  deriving DecidableEq, Repr

/-- A latched first failure of a batch, `(index, cause, phase, regaddr)` (R24). -/
structure BatchFail where
  index : Byte
  cause : Cause
  phase : Option Phase
  regaddr : RegAddr
  deriving DecidableEq, Repr

/-- An error kind with the fields it records (R201). -/
inductive ErrorKind where
  | invalidChannel
  | busTransactionFailed (regaddr : RegAddr) (phase : Phase)
  | partialBatchFailure (f : BatchFail)
  | illegalCommand
  deriving DecidableEq, Repr

/-- One event of the observation (R15), with the return of each `BusXact` (from which the image is computed, R55) and
each reset. -/
inductive Event where
  /-- A transport call, its arguments, and the response drawn; `none` when a reset came before it returned (R232; log 7,
  log 20). -/
  | call (c : Call) (r : Option Answer)
  /-- `BusXact(bytes)` returned (R47). -/
  | xact (bytes : List Byte) (r : XactResult)
  /-- RESULT was written with this value (R26). -/
  | result (v : BitVec 32)
  /-- The block was reset (R230). -/
  | reset
  deriving DecidableEq, Repr

/-- Everything the spec gives the block, and the model's own fields for its environment and its observation
(INVENTORY.md, State). Plain data. -/
structure State where
  /-- `BUS_ADDR` (R21). -/
  busAddr : BusAddr
  /-- `MODE` (R23). -/
  mode : Mode
  /-- `XPHASE` (R25). -/
  xphase : Option Phase
  /-- The open transaction, the transfer in progress of R23 and R47 (the model's own field, log 1). -/
  xact : Option Xact
  /-- `BATCH_REM` (R24). -/
  batchRem : Byte
  /-- `BATCH_IDX` (R24). -/
  batchIdx : Byte
  /-- `BATCH_FAIL` (R24). -/
  batchFail : Option BatchFail
  /-- `RESULT` (R26). -/
  result : BitVec 32
  /-- The command words presented and not yet consumed, in order (R22, R70; the model's own field, log 3). -/
  port : List CmdWord
  /-- The transport's responses drawn and not yet used, in order; empty when the outstanding call has not returned
  (R12, R217; the model's own field, log 2). -/
  answers : List Answer
  /-- The observation, oldest event first (R15; the model's own field, log 5). -/
  log : List Event
  deriving DecidableEq, Repr

/-- Why the machine stops. The block itself has no fatal condition (R200). -/
inductive Fault where
  /-- Raised by `resume` in a state with MODE = EXEC and no transport call outstanding, which contradicts R23 and R25
  and which no rule reaches. Safe: the model stops where the spec gives no next state (log 10). -/
  | noCallOutstanding
  deriving DecidableEq, Repr

/-- Why the model gives an instruction no meaning. -/
inductive Refusal where
  /-- Raised by an arm of `exec` whose instruction has no meaning yet; no arm of this model raises it. Safe. -/
  | notModelled (mnemonic : String)
  deriving DecidableEq, Repr

/-- The block right after reset (R36, R230), with nothing presented, no response drawn and nothing observed (log 2,
log 3, log 5). -/
def State.reset : State where
  busAddr := Config.busAddr
  mode := .idle
  xphase := none
  xact := none
  batchRem := 0
  batchIdx := 0
  batchFail := none
  result := 0
  port := []
  answers := []
  log := []

end Sys2Proof.Machine
end

