-- ==== Sys2Proof/Machine/Flags.lean ====
section
/-! DEFINITION. RESULT and CMD_READY: the only status the block has (10_state.md R26 to R32). -/

namespace Sys2Proof.Machine

/-- The fields a completion writes into RESULT; `VALID` is always written 1 and bit 15 always 0 (R26, R30). Every
default is the 0 of a field that does not apply (R30, D22). -/
structure ResultFields where
  status : BitVec 3
  phase : BitVec 2 := 0
  cause : BitVec 2 := 0
  regaddr : RegAddr := 0
  index : Byte := 0
  value : Byte := 0
  deriving DecidableEq, Repr

/-- The layout of RESULT: each field zero-extended and at its place, `VALID` 1, bit 15 left 0 (R26). -/
def ResultFields.pack (f : ResultFields) : BitVec 32 :=
  f.status.setWidth 32 ||| f.phase.setWidth 32 <<< 3 ||| f.cause.setWidth 32 <<< 5 ||| 1#32 <<< 7 |||
    f.regaddr.setWidth 32 <<< 8 ||| f.index.setWidth 32 <<< 16 ||| f.value.setWidth 32 <<< 24

/-- `RESULT.STATUS`, bits [2:0] (R26, R27). -/
def resultStatus (r : BitVec 32) : BitVec 3 := r.extractLsb' 0 3
/-- `RESULT.PHASE`, bits [4:3] (R26, R28). -/
def resultPhase (r : BitVec 32) : BitVec 2 := r.extractLsb' 3 2
/-- `RESULT.CAUSE`, bits [6:5] (R26, R29). -/
def resultCause (r : BitVec 32) : BitVec 2 := r.extractLsb' 5 2
/-- `RESULT.VALID`, bit 7 (R26, R37). -/
def resultValid (r : BitVec 32) : BitVec 1 := r.extractLsb' 7 1
/-- `RESULT.REGADDR`, bits [14:8] (R26). -/
def resultRegaddr (r : BitVec 32) : RegAddr := r.extractLsb' 8 7
/-- Bit 15 of RESULT, reserved, always 0 (R26). -/
def resultReserved (r : BitVec 32) : BitVec 1 := r.extractLsb' 15 1
/-- `RESULT.INDEX`, bits [23:16] (R26). -/
def resultIndex (r : BitVec 32) : Byte := r.extractLsb' 16 8
/-- `RESULT.VALUE`, bits [31:24] (R26). -/
def resultValue (r : BitVec 32) : Byte := r.extractLsb' 24 8

/-- `STATUS` of a command that completed with no error (R27). -/
def statusOk : BitVec 3 := 0

/-- `code(E)`, the `STATUS` of an error kind (R27, R201). -/
def statusCode : ErrorKind → BitVec 3
  | .invalidChannel => 1
  | .busTransactionFailed _ _ => 2
  | .partialBatchFailure _ => 3
  | .illegalCommand => 4

/-- `RESULT.PHASE` codes; `none` is NONE (R28). -/
def phaseCode : Option Phase → BitVec 2
  | none => 0
  | some .callBegin => 1
  | some .callWrite => 2
  | some .callEnd => 3

/-- `RESULT.CAUSE` codes (R29). -/
def causeCode : Cause → BitVec 2
  | .invalidChannel => 1
  | .busTransactionFailed => 2
  | .illegalCommand => 3

/-- What an error records: its status and the fields R201 lists for it, all other fields 0 (R147, R203, R206). -/
def errorFields (e : ErrorKind) : ResultFields :=
  match e with
  | .invalidChannel => { status := statusCode e }
  | .busTransactionFailed a p => { status := statusCode e, phase := phaseCode (some p), regaddr := a }
  | .partialBatchFailure f =>
    { status := statusCode e, phase := phaseCode f.phase, cause := causeCode f.cause, regaddr := f.regaddr,
      index := f.index }
  | .illegalCommand => { status := statusCode e }

/-- `CMD_READY`, which the block computes from MODE (R31). -/
def State.cmdReady (s : State) : Bool :=
  match s.mode with
  | .idle => true
  | .batch => true
  | .exec => false

end Sys2Proof.Machine
end

