-- ==== Sys2Proof/Machine/Operands.lean ====
section
/-! DEFINITION. Operand forms: the channel check, the register-address decoder (40_register_map.md) and the
current-to-gain converter (42_gain_converter.md). Pure functions, no state. -/

namespace Sys2Proof.Machine

/-- The channel an operand byte names, if it is in [0, 24); every caller checks this first and raises `InvalidChannel`
otherwise (R105, R202). -/
def channelOf (a : Byte) : Option Channel :=
  if h : a.toNat < 24 then some ⟨a.toNat, h⟩ else none

/-- `pwm_register(ch) = PWM_BASE + ch` (R101). -/
def pwmRegister (ch : Channel) : RegAddr := Config.pwmBase + BitVec.ofNat 7 ch.val

/-- `gain_register(ch) = GAIN_BASE + ch` (R102). -/
def gainRegister (ch : Channel) : RegAddr := Config.gainBase + BitVec.ofNat 7 ch.val

/-- `with_autoincrement(a) = AI_BIT | zext_8(a)` (R104). -/
def withAutoincrement (a : RegAddr) : Byte := Config.aiBit ||| a.setWidth 8

/-- The address byte of a single-register write, `zext_8(reg7)`: `AI = 0` (R43, R45). -/
def singleRegister (a : RegAddr) : Byte := a.setWidth 8

/-- `AI`, bit 7 of an address byte (R43). -/
def addrByteAi (b : Byte) : Bool := b.getLsbD 7

/-- `REG`, bits [6:0] of an address byte (R43). -/
def addrByteReg (b : Byte) : RegAddr := b.setWidth 7

/-- `convert_current_to_gain(c)`: 255 for c ≥ 57, else `floor(c * 255 / 57)` in exact arithmetic (R170, R171). -/
def convertCurrentToGain (c : Byte) : Byte :=
  if Config.maxCurrentMa ≤ c.toNat then BitVec.ofNat 8 Config.maxGain
  else BitVec.ofNat 8 (c.toNat * Config.maxGain / Config.maxCurrentMa)

/-- The name of a register of the chip's register space (R106). -/
inductive RegisterName where
  | mode1
  | pwm (n : Nat)
  | gain (n : Nat)
  | unnamed
  deriving DecidableEq, Repr

/-- `decode_register(a)`: the inverse classification of the register space (R106, R41). -/
def decodeRegister (a : RegAddr) : RegisterName :=
  if a.toNat = 0x00 then .mode1
  else if 0x0A ≤ a.toNat ∧ a.toNat ≤ 0x21 then .pwm (a.toNat - 0x0A)
  else if 0x22 ≤ a.toNat ∧ a.toNat ≤ 0x39 then .gain (a.toNat - 0x22)
  else .unnamed

end Sys2Proof.Machine
end

