-- ==== Sys2Proof/Machine/Ops.lean ====
section
/-! DEFINITION. The operations every command is made of: recording, completing, raising an error (60_exceptions.md R206,
the block's whole exception mechanism; there is no return from one, R210), the bus transaction (20_memory.md R47) and
the batch (41_device_controller.md R146, R147). -/

namespace Sys2Proof.Machine

/-- Add an event to the observation (R15). -/
def State.record (s : State) (e : Event) : State := { s with log := s.log ++ [e] }

/-- Write RESULT, every field of it, and go to IDLE: the end of a command (R26, R30, R130, R206). -/
def State.complete (s : State) (f : ResultFields) : State :=
  { s with result := f.pack, mode := .idle, log := s.log ++ [.result f.pack] }

/-- `RESULT <- (VALID=1, STATUS=OK, VALUE=v, all other fields 0)`: a command that succeeds (R107, R131, R140). -/
def State.succeed (s : State) (v : Byte) : State := s.complete { status := statusOk, value := v }

/-- `raise E(fields)`: RESULT gets the error's code and fields, and MODE goes to IDLE (R206). No handler runs, no state
is saved, and nothing returns from it (R200, R210). -/
def State.raise (s : State) (e : ErrorKind) : State := s.complete (errorFields e)

/-- Batch completion: RESULT reports OK or the latched first failure, and the batch registers are reset (R147). -/
def State.completeBatch (s : State) : State :=
  let done := match s.batchFail with
    | none => s.succeed 0
    | some f => s.raise (.partialBatchFailure f)
  { done with batchIdx := 0, batchFail := none }

/-- The last lines of an entry slot: count it, and complete the batch or wait for the next entry word (R146). -/
def State.endEntry (s : State) : State :=
  let s' := { s with batchIdx := s.batchIdx + 1, batchRem := s.batchRem - 1 }
  if s'.batchRem = 0 then s'.completeBatch else { s' with mode := .batch }

/-- Latch a batch's first failure at the entry in progress, `BATCH_FAIL <- (BATCH_IDX, cause, phase, regaddr)` (R146). -/
def State.latch (s : State) (c : Cause) (p : Option Phase) (a : RegAddr) : State :=
  { s with batchFail := some ⟨s.batchIdx, c, p, a⟩ }

/-- The bytes of a transaction, `[addr_byte] ++ payload` (R44). -/
def Xact.bytes (x : Xact) : List Byte := x.addrByte :: x.payload

/-- The 7-bit address of the transaction's first register, bit 7 clear (R134, R203). -/
def Xact.regaddr (x : Xact) : RegAddr := addrByteReg x.addrByte

/-- The transport call that a phase of a transaction makes, with its arguments (R47 to R50). -/
def Xact.callAt (x : Xact) (addr : BusAddr) : Phase → Call
  | .callBegin => .transportBegin addr
  | .callWrite => .transportWrite x.bytes
  | .callEnd => .transportEnd

/-- Enter `BusXact(bytes)`: MODE = EXEC, and `TransportBegin(BUS_ADDR)` is outstanding (R23, R47). -/
def State.openXact (s : State) (x : Xact) : State :=
  { s with mode := .exec, xphase := some .callBegin, xact := some x }

/-- Transaction 1 of `INIT`, the mode write `[0x80, MODE1_AI_ALL]` (R132, C5). -/
def modeWrite (g : Byte) : Xact := ⟨withAutoincrement Config.mode1Addr, [Config.mode1AiAll], .initMode g⟩

/-- Transaction 2 of `INIT`, the gain write `[0xA2] ++ replicate(24, g)` (R133). -/
def gainWrite (g : Byte) : Xact :=
  ⟨withAutoincrement (gainRegister 0), List.replicate Config.channelCount g, .initGain⟩

/-- The single-register write of a level, `[0x0A + ch, v]` with `AI = 0` (R45, R140, R150). -/
def levelWrite (ch : Channel) (v : Byte) (caller : Caller) : Xact := ⟨singleRegister (pwmRegister ch), [v], caller⟩

/-- The caller of `BusXact` goes on after `OK`: `INIT` issues its second transaction after the first (R131, R237); a batch
entry ends its slot (R146); every other command has succeeded (R131, R140). -/
def State.afterOk (s : State) : Caller → State
  | .initMode g => s.openXact (gainWrite g)
  | .initGain => s.succeed 0
  | .setChannel => s.succeed 0
  | .entry => s.endEntry

/-- The caller of `BusXact` goes on after `FAIL(p)`: the command ends with `BusTransactionFailed` (R134, R140, R203), and
a batch entry latches the failure and ends its slot (R146). Nothing is retried (R51, R208). -/
def State.afterFail (s : State) (a : RegAddr) (p : Phase) : Caller → State
  | .initMode _ => s.raise (.busTransactionFailed a p)
  | .initGain => s.raise (.busTransactionFailed a p)
  | .setChannel => s.raise (.busTransactionFailed a p)
  | .entry => (s.latch .busTransactionFailed (some p) a).endEntry

/-- The caller of `BusXact` goes on with what it returned. -/
def State.callerGoesOn (s : State) (x : Xact) : XactResult → State
  | .ok => s.afterOk x.caller
  | .fail p => s.afterFail x.regaddr p x.caller

/-- `BusXact` returns: XPHASE is NONE, no transaction is open, and the caller goes on (R47). -/
def State.closeXact (s : State) (x : Xact) (r : XactResult) : State :=
  State.callerGoesOn { s with xphase := none, xact := none, log := s.log ++ [Event.xact x.bytes r] } x r

/-- The transport answers the outstanding call of phase `p`: the next call of the transaction is made, or `BusXact`
returns (R47, R51). The call is observed here, with its response; that a call which has not returned is not yet in the
observation is the model's choice (DESIGN CHOICE, log 20). -/
def State.onAnswer (s : State) (x : Xact) (p : Phase) (r : Answer) : State :=
  let s' := s.record (.call (x.callAt s.busAddr p) (some r))
  match r, p with
  | .failed, _ => s'.closeXact x (.fail p)
  | .accepted, .callBegin => { s' with xphase := some .callWrite }
  | .accepted, .callWrite => { s' with xphase := some .callEnd }
  | .accepted, .callEnd => s'.closeXact x .ok

/-- The call that is outstanding, if one is: MODE = EXEC and XPHASE names a call of the open transaction (R23, R25). -/
def State.outstanding (s : State) : Option (Xact × Phase) :=
  match s.mode, s.xphase, s.xact with
  | .exec, some p, some x => some (x, p)
  | _, _, _ => none

/-- Run with the given responses drawn, in order: each answers the call then outstanding. It ends when no call is
outstanding, or when the outstanding call has no response yet (R57, R58, R217). -/
def State.drainWith (s : State) : List Answer → State
  | [] => { s with answers := [] }
  | r :: rs =>
    match s.outstanding with
    | some (x, p) => (s.onAnswer x p r).drainWith rs
    | none => { s with answers := r :: rs }

/-- Run until no call is outstanding or the outstanding call has not returned (R217). -/
def State.drain (s : State) : State := s.drainWith s.answers

/-- `BusXact(bytes)` and all that its caller does after it, as far as the transport answers (R47). -/
def State.busXact (s : State) (x : Xact) : State := (s.openXact x).drain

/-- One entry slot (R146): `some (ch, v)` is the word of an ENTRY row, `none` any other word (R82). After a latched
failure the word is discarded with no bus activity (R148). -/
def State.entrySlot (s : State) (e : Option (Byte × Byte)) : State :=
  match s.batchFail, e with
  | some _, _ => s.endEntry
  | none, none => (s.latch .illegalCommand none 0).endEntry
  | none, some (a, v) =>
    match channelOf a with
    | none => (s.latch .invalidChannel none 0).endEntry
    | some ch => s.busXact (levelWrite ch v .entry)

/-- A word that is no ENTRY is consumed: in IDLE it is a header and `run` is its rule; in BATCH it stands in an entry
slot, whatever it is (R80, R82); in EXEC the block accepts no word (R23, R31, log 8). -/
def State.consumeHeader (s : State) (run : State → State) : State :=
  match s.mode with
  | .idle => run s
  | .batch => s.entrySlot none
  | .exec => s

/-- A word that matches no row is consumed: `IllegalCommand` as a header, a failing entry in a slot (R81, R82, R205). -/
def State.illegalWord (s : State) : State := s.consumeHeader fun t => t.raise .illegalCommand

/-- Take the next command word from the port, if the host has presented one (R22, R70). -/
def State.takeWord (s : State) : Option (CmdWord × State) :=
  match s.port with
  | [] => none
  | w :: ws => some (w, { s with port := ws })

/-- A step in MODE = EXEC: go on with the responses drawn, and with none of them wait, for ever if none comes (R217).
A state with no call outstanding is one no rule reaches (log 10). -/
def State.resume (s : State) : Host.Outcome State Fault Refusal :=
  match s.outstanding with
  | some _ => .next s.drain
  | none => .fault .noCallOutstanding

end Sys2Proof.Machine
end

