-- ==== Sys2Proof/Machine/Controller.lean ====
section
/-! DEFINITION. The Device Controller operations (41_device_controller.md): INIT, SET_CHANNEL, SET_CHANNELS, ENTRY. -/

namespace Sys2Proof.Machine

/-- `INIT c` (R131 to R137): the mode write, then, if it ended with OK, the gain write with the converted current in all
24 gain registers. -/
def execInit (c : Byte) (s : State) : Host.Outcome State Fault Refusal :=
  .next (s.consumeHeader fun t => t.busXact (modeWrite (convertCurrentToGain c)))

/-- `SET_CHANNEL ch, v` (R140, R141): `InvalidChannel` before any bus activity, else one single-register write. -/
def execSetChannel (a v : Byte) (s : State) : Host.Outcome State Fault Refusal :=
  .next (s.consumeHeader fun t =>
    match channelOf a with
    | none => t.raise .invalidChannel
    | some ch => t.busXact (levelWrite ch v .setChannel))

/-- `SET_CHANNELS n` (R145): n = 0 completes at once, else the block waits for n entry words. -/
def execSetChannels (n : Byte) (s : State) : Host.Outcome State Fault Refusal :=
  .next (s.consumeHeader fun t =>
    if n = 0 then t.succeed 0
    else { t with batchRem := n, batchIdx := 0, batchFail := none, mode := .batch })

/-- `ENTRY ch, v`: in an entry slot, one application of `set_channel` (R146); outside a batch, `IllegalCommand` (R149);
in EXEC no word is accepted (R31, log 8). -/
def execEntry (a v : Byte) (s : State) : Host.Outcome State Fault Refusal :=
  .next (match s.mode with
    | .idle => s.raise .illegalCommand
    | .batch => s.entrySlot (some (a, v))
    | .exec => s)

end Sys2Proof.Machine
end

