-- ==== Sys2Proof/Machine/Query.lean ====
section
/-! DEFINITION. The query commands (40_register_map.md R107 to R109, 42_gain_converter.md R174): RESULT only, no bus
activity. -/

namespace Sys2Proof.Machine

/-- A query of a channel's register: `InvalidChannel` for a channel of 24 or more, else the register's address in VALUE
(R105, R107, R108). -/
def State.queryRegister (s : State) (a : Byte) (reg : Channel → RegAddr) : State :=
  match channelOf a with
  | none => s.raise .invalidChannel
  | some ch => s.succeed ((reg ch).setWidth 8)

/-- `Q_PWM_REG ch` (R107). -/
def execQPwmReg (a : Byte) (s : State) : Host.Outcome State Fault Refusal :=
  .next (s.consumeHeader fun t => t.queryRegister a pwmRegister)

/-- `Q_GAIN_REG ch` (R108). -/
def execQGainReg (a : Byte) (s : State) : Host.Outcome State Fault Refusal :=
  .next (s.consumeHeader fun t => t.queryRegister a gainRegister)

/-- `Q_WITH_AI a` (R109). The word of an ill-formed term, with `A[7] = 1`, matches no row and is `IllegalCommand` (R81,
D23, log 11). -/
def execQWithAi (a : Byte) (s : State) : Host.Outcome State Fault Refusal :=
  .next (if a.toNat < 128 then s.consumeHeader fun t => t.succeed (withAutoincrement (a.setWidth 7))
    else s.illegalWord)

/-- `Q_GAIN_CODE c` (R174). -/
def execQGainCode (c : Byte) (s : State) : Host.Outcome State Fault Refusal :=
  .next (s.consumeHeader fun t => t.succeed (convertCurrentToGain c))

end Sys2Proof.Machine
end

