-- ==== Sys2Proof/Machine/Dispatch.lean ====
section
/-! DEFINITION. One arm per command. -/

namespace Sys2Proof.Machine

/-- What the block does with a decoded command word it has consumed (R130, R146). -/
def exec (i : Instr) (s : State) : Host.Outcome State Fault Refusal :=
  match i with
  | .init c => Sys2Proof.Machine.execInit c s
  | .setChannel ch v => Sys2Proof.Machine.execSetChannel ch v s
  | .setChannels n => Sys2Proof.Machine.execSetChannels n s
  | .entry ch v => Sys2Proof.Machine.execEntry ch v s
  | .qPwmReg ch => Sys2Proof.Machine.execQPwmReg ch s
  | .qGainReg ch => Sys2Proof.Machine.execQGainReg ch s
  | .qWithAi a => Sys2Proof.Machine.execQWithAi a s
  | .qGainCode c => Sys2Proof.Machine.execQGainCode c s

end Sys2Proof.Machine
end

