-- ==== Sys2Proof/Machine/Step.lean ====
section
/-! DEFINITION. One step of the block, and how an instruction is placed where the next step takes it. -/

namespace Sys2Proof.Machine

/-- One step (R70, R130). With CMD_READY = 1 the block consumes the next command word of the port and acts on it to its end,
or as far as the transport has answered; with no word presented it waits. In EXEC it goes on with the transport's
responses. -/
def step (s : State) : Host.Outcome State Fault Refusal :=
  if s.cmdReady then
    match s.takeWord with
    | none => .next s
    | some (w, t) =>
      match decode w with
      | .command i => exec i t
      | .illegal _ => .next t.illegalWord
  else s.resume

/-- `s` with a command word stored where the next step takes one: at the head of the port. In EXEC no word is taken (R31),
so there the transfer in progress is put aside and MODE is IDLE (log 3). -/
def State.withFetchWord (s : State) (nbits w : Nat) : State :=
  match s.mode with
  | .exec => { s with mode := .idle, xphase := none, xact := none, port := tableWord nbits w :: s.port.tail }
  | _ => { s with port := tableWord nbits w :: s.port.tail }

end Sys2Proof.Machine
end

