-- ==== Sys2Proof/Machine/Assembler.lean ====
section
/-! DEFINITION. The assembly syntax of the spec and its one pseudo-instruction (30_encoding.md R84, R85; log 14). A line is a
list of characters; it assembles to command words. -/

namespace Sys2Proof.Machine

/-- One line of assembly, operands as written, not yet checked to fit (R84, R85). -/
inductive AsmLine where
  | init (c : Nat)
  | setChannel (ch v : Nat)
  | setChannels (n : Nat)
  | entry (ch v : Nat)
  | qPwmReg (ch : Nat)
  | qGainReg (ch : Nat)
  | qWithAi (a : Nat)
  | qGainCode (c : Nat)
  /-- The pseudo-instruction `SET_CHANNELS [(ch0, v0), …]` (R85). -/
  | batch (entries : List (Nat × Nat))
  deriving DecidableEq, Repr

/-- An operand of field `A` or `B`; above 255 it does not fit (R84). -/
def byteOperand (n : Nat) : Option Byte := if n < 256 then some (BitVec.ofNat 8 n) else none

/-- The operand of `Q_WITH_AI`; above 127 it does not fit (R84). -/
def regOperand (n : Nat) : Option Byte := if n < 128 then some (BitVec.ofNat 8 n) else none

/-- A single command's instruction, if its operands fit. -/
def AsmLine.instr : AsmLine → Option Instr
  | .init c => (byteOperand c).map .init
  | .setChannel ch v => (byteOperand ch).bind fun a => (byteOperand v).map (.setChannel a)
  | .setChannels n => (byteOperand n).map .setChannels
  | .entry ch v => (byteOperand ch).bind fun a => (byteOperand v).map (.entry a)
  | .qPwmReg ch => (byteOperand ch).map .qPwmReg
  | .qGainReg ch => (byteOperand ch).map .qGainReg
  | .qWithAi a => (regOperand a).map .qWithAi
  | .qGainCode c => (byteOperand c).map .qGainCode
  | .batch _ => none

/-- A batch of at most 255 entries: the header and its entry words (R85). -/
def assemblePiece (entries : List (Nat × Nat)) : Option (List CmdWord) := do
  let header ← (AsmLine.setChannels entries.length).instr
  let slots ← entries.mapM fun e => (AsmLine.entry e.1 e.2).instr
  return (header :: slots).map encode

/-- Cut a list of entries into pieces of at most 255, as few as possible (R85; how it is cut is log 14). The first argument
bounds the number of cuts. -/
def batchPieces : Nat → List (Nat × Nat) → List (List (Nat × Nat))
  | 0, es => [es]
  | n + 1, es => if es.length ≤ 255 then [es] else es.take 255 :: batchPieces n (es.drop 255)

/-- The words of one line; none is an assembly error (R84, R85). -/
def assemble : AsmLine → Option (List CmdWord)
  | .batch es => ((batchPieces es.length es).mapM assemblePiece).map List.flatten
  | l => l.instr.map fun i => [encode i]

/-- A token of a line. -/
inductive Token where
  | word (cs : List Char)
  | punct (c : Char)
  deriving DecidableEq, Repr

/-- The word read so far, if any, before the tokens that follow. -/
def flushWord (cur : List Char) (rest : List Token) : List Token :=
  if cur = [] then rest else .word cur.reverse :: rest

/-- The tokens of a line; `;` starts a comment (R84). The second argument is the word being read, last character first. -/
def tokens : List Char → List Char → List Token
  | [], cur => flushWord cur []
  | c :: cs, cur =>
    if c.isAlphanum || c == '_' then tokens cs (c :: cur)
    else if c == ';' then flushWord cur []
    else if c.isWhitespace then flushWord cur (tokens cs [])
    else flushWord cur (.punct c :: tokens cs [])

/-- The value of a digit in any base up to 16. -/
def digitValue (c : Char) : Option Nat :=
  if '0'.toNat ≤ c.toNat ∧ c.toNat ≤ '9'.toNat then some (c.toNat - '0'.toNat)
  else if 'a'.toNat ≤ c.toNat ∧ c.toNat ≤ 'f'.toNat then some (c.toNat - 'a'.toNat + 10)
  else if 'A'.toNat ≤ c.toNat ∧ c.toNat ≤ 'F'.toNat then some (c.toNat - 'A'.toNat + 10)
  else none

/-- Digits of a base, most significant first, after the value `acc`. -/
def digits (base : Nat) : Nat → List Char → Option Nat
  | acc, [] => some acc
  | acc, c :: cs =>
    match digitValue c with
    | none => none
    | some d => if d < base then digits base (acc * base + d) cs else none

/-- An integer operand, decimal or `0x` hexadecimal (R84). -/
def numeral : List Char → Option Nat
  | [] => none
  | '0' :: 'x' :: c :: cs => digits 16 0 (c :: cs)
  | cs => digits 10 0 cs

/-- Operands separated by commas (R84). -/
def operands : List Token → Option (List Nat)
  | [] => some []
  | [.word w] => (numeral w).map fun n => [n]
  | .word w :: .punct ',' :: t :: ts => (numeral w).bind fun n => (operands (t :: ts)).map (n :: ·)
  | _ => none

/-- The pairs of a batch after its opening bracket, one at least (R85). -/
def pairs : List Token → Option (List (Nat × Nat))
  | .punct '(' :: .word a :: .punct ',' :: .word b :: .punct ')' :: rest =>
    (numeral a).bind fun m => (numeral b).bind fun n =>
      match rest with
      | [.punct ']'] => some [(m, n)]
      | .punct ',' :: rest' => (pairs rest').map ((m, n) :: ·)
      | _ => none
  | _ => none

/-- The line a mnemonic and its operands make (R84). -/
def lineOf (mnemonic : List Char) (ops : List Nat) : Option AsmLine :=
  match ops with
  | [a] =>
    if mnemonic = "INIT".toList then some (.init a)
    else if mnemonic = "SET_CHANNELS".toList then some (.setChannels a)
    else if mnemonic = "Q_PWM_REG".toList then some (.qPwmReg a)
    else if mnemonic = "Q_GAIN_REG".toList then some (.qGainReg a)
    else if mnemonic = "Q_WITH_AI".toList then some (.qWithAi a)
    else if mnemonic = "Q_GAIN_CODE".toList then some (.qGainCode a)
    else none
  | [a, b] =>
    if mnemonic = "SET_CHANNEL".toList then some (.setChannel a b)
    else if mnemonic = "ENTRY".toList then some (.entry a b)
    else none
  | _ => none

/-- Parse a line: `none` is a syntax error, `some none` a blank or comment line (R84). -/
def parseLine (line : List Char) : Option (Option AsmLine) :=
  match tokens line [] with
  | [] => some none
  | .word m :: .punct '[' :: rest =>
    if m = "SET_CHANNELS".toList then
      if rest = [.punct ']'] then some (some (.batch []))
      else (pairs rest).map fun es => some (.batch es)
    else none
  | .word m :: rest => ((operands rest).bind (lineOf m)).map some
  | _ => none

/-- The words of a program, one command a line (R84). R84 says that an operand which does not fit produces no word and not
what becomes of the other lines. The model's choice (DESIGN CHOICE, log 14): an error in one line leaves the whole
program without words. -/
def assembleProgram : List (List Char) → Option (List CmdWord)
  | [] => some []
  | line :: lines => do
    let words ← match ← parseLine line with
      | none => some []
      | some l => assemble l
    let rest ← assembleProgram lines
    return words ++ rest

end Sys2Proof.Machine
end

