-- ==== Sys2Proof/Machine/Environment.lean ====
section
/-! DEFINITION. What the outside world does to the block, between two steps: the host presents a word, the transport
answers, the block is reset (00_scope.md R14, 70_reset_and_hazards.md R230 to R232). -/

namespace Sys2Proof.Machine

/-- An input from outside the block. -/
inductive Input where
  /-- The host presents one more command word (R22, R70). -/
  | present (w : CmdWord)
  /-- The transport draws one more response (R12). -/
  | answer (r : Answer)
  /-- The block is constructed again (R230). -/
  | reset
  deriving DecidableEq, Repr

/-- The transport call that a reset abandons, made and never answered (R232); that it is observed then, with no response, is
the model's choice (DESIGN CHOICE, log 7, log 20). -/
def State.abandonedCall (s : State) : List Event :=
  match s.outstanding with
  | some (x, p) => [.call (x.callAt s.busAddr p) none]
  | none => []

/-- Reset, at any point (R230, R232): every piece of block state gets its reset value, a command in progress is abandoned
with no RESULT write and no further call. The host's words, the transport's responses and the observation are not
block state and stay (R35, log 7). -/
def State.applyReset (s : State) : State :=
  { State.reset with port := s.port, answers := s.answers, log := s.log ++ s.abandonedCall ++ [.reset] }

/-- What an input does. -/
def State.receive (s : State) : Input → State
  | .present w => { s with port := s.port ++ [w] }
  | .answer r => { s with answers := s.answers ++ [r] }
  | .reset => s.applyReset

end Sys2Proof.Machine
end

