-- ==== Sys2Proof/Machine/Image.lean ====
section
/-! DEFINITION. The chip register space as the block has written it: memory as a sparse list of cells, and the image IMG
of 20_memory.md R55 and R56, a function of the observation (log 6). -/

namespace Sys2Proof.Machine

/-- The chip's register space (R40): the known registers, addresses strictly rising and below 128. An address that is
not listed reads `none`, that is Unknown (R55). -/
abbrev Memory := List Host.Cell

/-- The addresses rise strictly, none is below `lo`, and none is outside the space. -/
def Memory.risingFrom : Nat → Memory → Bool
  | _, [] => true
  | lo, (k, _) :: m => decide (lo ≤ k) && decide (k < Config.regSpaceSize) && risingFrom (k + 1) m

/-- The canonical form: addresses strictly rising, all inside the register space. -/
def Memory.wf (m : Memory) : Bool := Memory.risingFrom 0 m

/-- One register of the image: `some v` is `Known v`, `none` is Unknown (R55). -/
def Memory.read : Memory → Nat → Option Byte
  | [], _ => none
  | (k, v) :: m, a => if k = a then some v else read m a

/-- Put a cell in its place. -/
def Memory.insert : Memory → Nat → Byte → Memory
  | [], a, b => [(a, b)]
  | (k, v) :: m, a, b =>
    if a < k then (a, b) :: (k, v) :: m
    else if a = k then (a, b) :: m
    else (k, v) :: insert m a b

/-- `IMG[a] <- Known(b)` (R55); an address outside the space has no cell (R40). -/
def Memory.write (m : Memory) (a : Nat) (b : Byte) : Memory :=
  if a < Config.regSpaceSize then m.insert a b else m

/-- `IMG[a] <- Unknown` (R55, R56). -/
def Memory.forget (m : Memory) (a : Nat) : Memory := m.filter (fun c => c.1 != a)

/-- `IMG[a], IMG[a+1], … <- Unknown`, `n` addresses (R56). -/
def Memory.forgetFrom (m : Memory) (a : Nat) : Nat → Memory
  | 0 => m
  | n + 1 => (m.forget a).forgetFrom (a + 1) n

/-- `AI_SCOPE_COVERS(x)`: `x ≤ 0x39` and `IMG[0x00] = Known(MODE1_AI_ALL)` (R55). -/
def Memory.scopeCovers (m : Memory) (x : Nat) : Bool :=
  decide (x ≤ Config.lastScopeReg) && decide (m.read Config.mode1Addr.toNat = some Config.mode1AiAll)

/-- The loop of R55 over the payload bytes after the first, the next of which is destined for address `x`. -/
def Memory.blockTail : Memory → Nat → List Byte → Memory
  | m, _, [] => m
  | m, x, b :: bs => (if m.scopeCovers x then m.write x b else m.forget x).blockTail (x + 1) bs

/-- What a transaction that ended with `TransportEnd = OK` does to the image (R55). A shape the block never issues
(several payload bytes with `AI = 0`, or none) leaves nothing known (N16, log 6). -/
def Memory.commit (m : Memory) (addr : Byte) (payload : List Byte) : Memory :=
  match addrByteAi addr, payload with
  | _, [] => []
  | false, [v] => m.write (addrByteReg addr).toNat v
  | false, _ :: _ :: _ => []
  | true, v :: vs => (m.write (addrByteReg addr).toNat v).blockTail ((addrByteReg addr).toNat + 1) vs

/-- What a transaction that failed at any phase does to the image: every address its bytes would have written becomes
Unknown (R56). A shape the block never issues leaves nothing known (N16, log 6). -/
def Memory.spoil (m : Memory) (addr : Byte) (payload : List Byte) : Memory :=
  match addrByteAi addr, payload with
  | _, [] => []
  | false, [_] => m.forget (addrByteReg addr).toNat
  | false, _ :: _ :: _ => []
  | true, v :: vs => m.forgetFrom (addrByteReg addr).toNat (v :: vs).length

/-- What one event does to the image. A transport call and a RESULT write leave it; a reset leaves every address Unknown
(R231, R232). -/
def Memory.observe (m : Memory) : Event → Memory
  | .call _ _ => m
  | .result _ => m
  | .reset => []
  | .xact [] _ => []
  | .xact (addr :: payload) .ok => m.commit addr payload
  | .xact (addr :: payload) (.fail _) => m.spoil addr payload

/-- IMG as a function of the observation: Unknown at every address, then every event in order (R55). -/
def imageOf (log : List Event) : Memory := log.foldl Memory.observe []

/-- The chip register image of a state, a derived view and not state of the block (R15, R55). -/
def State.image (s : State) : Memory := imageOf s.log

/-- One address of the image (R55). -/
def State.img (s : State) (a : Nat) : Option Byte := s.image.read a

/-- The observation of R15 alone: the transport calls with their arguments and responses, and the values written to
RESULT. R15 and R47 list a call with the response drawn and do not say whether a call that has not returned belongs to
it. The model's choice (DESIGN CHOICE, log 20): it does not, until it is answered or a reset abandons it. -/
def observation (log : List Event) : List Event :=
  log.filter fun e =>
    match e with
    | .call _ _ => true
    | .result _ => true
    | .xact _ _ => false
    | .reset => false

end Sys2Proof.Machine
end

