-- ==== Sys2Proof/Safety.lean ====
section
/-! DEFINITION. What a safe run of the block is, in the terms the claims use: the invariant of every step, the reachable
states, and the premise TRANSPORT_FAIR. -/

namespace Sys2Proof.Machine

/-- The responses of a transaction that returns `r`: accepted up to the phase that fails, and no call after it (R47, R51). -/
def drawsFor : XactResult → List Answer
  | .ok => [.accepted, .accepted, .accepted]
  | .fail .callBegin => [.failed]
  | .fail .callWrite => [.accepted, .failed]
  | .fail .callEnd => [.accepted, .accepted, .failed]

/-- What is observed of a transaction of these bytes to this bus address that returns `r`: its calls in order with their
responses, no call after a failure, then its return (R47, R51). -/
def transactionEvents (addr : BusAddr) (bytes : List Byte) : XactResult → List Event
  | .ok => [.call (.transportBegin addr) (some .accepted), .call (.transportWrite bytes) (some .accepted),
      .call .transportEnd (some .accepted), .xact bytes .ok]
  | .fail .callBegin => [.call (.transportBegin addr) (some .failed), .xact bytes (.fail .callBegin)]
  | .fail .callWrite => [.call (.transportBegin addr) (some .accepted), .call (.transportWrite bytes) (some .failed),
      .xact bytes (.fail .callWrite)]
  | .fail .callEnd => [.call (.transportBegin addr) (some .accepted), .call (.transportWrite bytes) (some .accepted),
      .call .transportEnd (some .failed), .xact bytes (.fail .callEnd)]

/-- The responses drawn, and the calls they answered, of a transaction whose call of phase `p` is outstanding (R47). -/
def drawsBefore : Phase → List Answer
  | .callBegin => []
  | .callWrite => [.accepted]
  | .callEnd => [.accepted, .accepted]

/-- What is observed of a transaction whose call of phase `p` is outstanding (R47). -/
def eventsBefore (addr : BusAddr) (bytes : List Byte) : Phase → List Event
  | .callBegin => []
  | .callWrite => [.call (.transportBegin addr) (some .accepted)]
  | .callEnd => [.call (.transportBegin addr) (some .accepted), .call (.transportWrite bytes) (some .accepted)]

/-- The RESULT value a batch completes with (R147). -/
def batchResult : Option BatchFail → BitVec 32
  | none => ResultFields.pack { status := 0 }
  | some f => ResultFields.pack
      { status := 3, phase := phaseCode f.phase, cause := causeCode f.cause, regaddr := f.regaddr, index := f.index }

/-- The RESULT value of a command that ends with its transaction to register `a` returning `r` (R131, R140, R203). -/
def transactionReport (a : RegAddr) : XactResult → BitVec 32
  | .ok => ResultFields.pack { status := 0 }
  | .fail p => ResultFields.pack { status := 2, phase := phaseCode (some p), regaddr := a }

/-- What the transaction of entry `i` to register `a` returning `r` leaves in BATCH_FAIL (R146). -/
def transactionLatch (i : Byte) (a : RegAddr) : XactResult → Option BatchFail
  | .ok => none
  | .fail p => some ⟨i, .busTransactionFailed, some p, a⟩

/-- `s` after a RESULT write of `v` that ends a command, and nothing else (R130). -/
def State.reported (s : State) (v : BitVec 32) : State :=
  { s with result := v, mode := .idle, log := s.log ++ [.result v] }

/-- `s` after an entry slot that leaves BATCH_FAIL = `f` (R146): the batch completes with the last slot (R147). -/
def State.slotEnded (s : State) (f : Option BatchFail) : State :=
  if s.batchRem = 1 then State.reported { s with batchRem := 0, batchIdx := 0, batchFail := none } (batchResult f)
  else { s with batchIdx := s.batchIdx + 1, batchRem := s.batchRem - 1, batchFail := f, mode := .batch }

/-- The ways an entry slot fails with no failure latched before it (R146): the word consumed, the responses drawn, what is
observed, and the cause, phase and register address latched. -/
inductive SlotFailure (addr : BusAddr) :
    CmdWord → List Answer → List Event → Cause → Option Phase → RegAddr → Prop where
  /-- The word matches no ENTRY row (R82). -/
  | notEntry (w : CmdWord) (h : w &&& 0xFFFF0000#32 ≠ 0x40000000#32) :
      SlotFailure addr w [] [] .illegalCommand none 0
  /-- The channel is 24 or more (R202). -/
  | channel (a v : Byte) (h : 24 ≤ a.toNat) :
      SlotFailure addr (encode (.entry a v)) [] [] .invalidChannel none 0
  /-- The transaction fails at phase `p` (R203). -/
  | bus (ch : Channel) (v : Byte) (p : Phase) :
      SlotFailure addr (encode (.entry (BitVec.ofNat 8 ch.val) v)) (drawsFor (.fail p))
        (transactionEvents addr [0x0A#8 + BitVec.ofNat 8 ch.val, v] (.fail p)) .busTransactionFailed (some p)
        (0x0A#7 + BitVec.ofNat 7 ch.val)

/-- What has been observed since the last reset. -/
def sinceReset (log : List Event) : List Event := (log.reverse.takeWhile (fun e => e != .reset)).reverse

/-- A header word of one of the three kinds of R81: a reserved opcode, reserved bits not 0, a must-be-0 operand not 0. -/
def IllegalHeader (w : CmdWord) : Prop :=
  fieldOp w ∈ [0x0#4, 0x5#4, 0x6#4, 0x7#4, 0xC#4, 0xD#4, 0xE#4, 0xF#4] ∨
  fieldRsvd w ≠ 0 ∨
  (fieldOp w ∈ [0x1#4, 0xB#4] ∧ fieldA w ≠ 0) ∨
  (fieldOp w ∈ [0x3#4, 0x8#4, 0x9#4, 0xA#4] ∧ fieldB w ≠ 0) ∨
  (fieldOp w = 0xA#4 ∧ 128 ≤ (fieldA w).toNat)

/-- The transaction byte lists the block may issue (R45, R83): the mode write, the gain write, the write of one level. -/
def IssuedBytes (bytes : List Byte) : Prop :=
  bytes = [0x80#8, Config.mode1AiAll] ∨
  (∃ g : Byte, bytes = 0xA2#8 :: List.replicate 24 g) ∨
  (∃ (ch : Channel) (v : Byte), bytes = [0x0A#8 + BitVec.ofNat 8 ch.val, v])

/-- A value RESULT may hold after a command: the reserved bit is 0 and the code is assigned (R26, R27), PHASE is non-zero
only for a bus failure (R28), CAUSE is non-zero exactly for a batch failure (R29), the other fields are 0 where they
do not apply (R30). -/
def ResultLegal (v : BitVec 32) : Prop :=
  resultValid v = 1 ∧ resultReserved v = 0 ∧ (resultStatus v).toNat ≤ 4 ∧
  (resultPhase v ≠ 0 ↔ resultStatus v = 2 ∨ (resultStatus v = 3 ∧ resultCause v = 2)) ∧
  (resultCause v ≠ 0 ↔ resultStatus v = 3) ∧
  (resultRegaddr v ≠ 0 → resultPhase v ≠ 0) ∧
  (resultIndex v ≠ 0 → resultStatus v = 3) ∧
  (resultValue v ≠ 0 → resultStatus v = 0)

/-- What the block may ever be seen to do (R15): it addresses only `BUS_ADDR` (R48, R213), it writes only the byte lists
of R83 (R42, R45), and RESULT only gets legal values. -/
def Event.Legal : Event → Prop
  | .call (.transportBegin a) _ => a = Config.busAddr
  | .call (.transportWrite bytes) _ => IssuedBytes bytes
  | .call .transportEnd _ => True
  | .xact bytes _ => IssuedBytes bytes
  | .result v => ResultLegal v
  | .reset => True

/-- An open transaction is one of those that R131, R140 and R146 issue, with its own caller. -/
def Xact.Legal (x : Xact) : Prop :=
  (∃ g, x = modeWrite g) ∨ (∃ g, x = gainWrite g) ∨
  (∃ ch v, x = levelWrite ch v .setChannel) ∨ (∃ ch v, x = levelWrite ch v .entry)

/-- The batch registers hold their values outside a batch (R36, R147). -/
def State.BatchCleared (s : State) : Prop := s.batchRem = 0 ∧ s.batchIdx = 0 ∧ s.batchFail = none

/-- A `SET_CHANNELS` command is in progress: an entry word is awaited, or an entry's transaction is open (R23, R24). -/
def State.InBatch (s : State) : Prop :=
  s.mode = .batch ∨ (s.mode = .exec ∧ ∃ x, s.xact = some x ∧ x.caller = .entry)

/-- A latched failure is one that R146 latches: of an entry already counted, with a phase exactly for a bus failure and a
register address only for one. -/
def BatchFail.Legal (f : BatchFail) : Prop :=
  (f.cause = .busTransactionFailed ↔ f.phase ≠ none) ∧ (f.phase = none → f.regaddr = 0)

/-- The invariant of the block. The sequencing registers agree (R23, R25), the batch registers are meaningful in a batch
and cleared outside one (R24, R36), BUS_ADDR is the construction parameter (R21), an open transaction is one the
block issues, RESULT is as at reset or legal, and so is everything observed. -/
structure State.Inv (s : State) : Prop where
  busAddr : s.busAddr = Config.busAddr
  phase : s.mode = .exec ↔ s.xphase ≠ none
  xact : s.mode = .exec ↔ s.xact ≠ none
  xactLegal : ∀ x, s.xact = some x → x.Legal
  batchCount : s.InBatch → 0 < s.batchRem.toNat ∧ s.batchIdx.toNat + s.batchRem.toNat ≤ 255
  batchCleared : ¬ s.InBatch → s.BatchCleared
  batchActing : s.mode = .exec → s.batchFail = none
  failLegal : ∀ f, s.batchFail = some f → f.Legal ∧ f.index.toNat < s.batchIdx.toNat
  result : s.result = 0 ∨ ResultLegal s.result
  log : ∀ e ∈ s.log, e.Legal

/-- The states the block can be in: after reset, after a step, after an input from outside (R14, R230). -/
inductive Reachable : State → Prop where
  | reset : Reachable State.reset
  | step {s t : State} : Reachable s → step s = .next t → Reachable t
  | input {s : State} (i : Input) : Reachable s → Reachable (s.receive i)

/-- `TRANSPORT_FAIR` for a stretch of a run: the transport returns from the next `n` calls (R217, R242, D20). A named premise
of every claim that a command completes. -/
def TransportFair (n : Nat) (s : State) : Prop := n ≤ s.answers.length

end Sys2Proof.Machine
end

