-- ==== Sys2Proof/Certificates/Slice0/Obligations.lean ====
section
/-! DEFINITION. The statements for the provers. Each docstring names the rules of spec/ it formalises. Where a statement
writes an address, a byte list or a RESULT value it writes it from the spec, not through the model's own function;
where it names a function of the model (`ResultFields.pack`, `phaseCode`, `convertCurrentToGain`), another statement here
says what that function is. -/

open Sys2Proof Sys2Proof.Machine

/-! ## Encoding -/

/-- Decoding the word of a well-formed command gives the command back, every operand at every value (R71, R72, R74 to R78). -/
def Obligations.DecodeInvertsEncode : Prop :=
  ∀ i : Instr, i.WellFormed → decode (encode i) = .command i

/-- A word that decodes to a command is that command's one encoding, and the command is well formed. -/
def Obligations.DecodedWordIsItsEncoding : Prop :=
  ∀ (w : CmdWord) (i : Instr), decode w = .command i → encode i = w ∧ i.WellFormed

/-- R79: the row a word decodes to is selected by the word and no other row is; ILLEGAL exactly when no row is selected. -/
def Obligations.DecodeReturnsTheUniqueRow : Prop :=
  ∀ w : CmdWord,
    (∀ i, decode w = .command i → i.row ∈ opcodeMap ∧ i.row.selects w = true ∧
      ∀ r ∈ opcodeMap, r.selects w = true → r = i.row) ∧
    ((∃ why, decode w = .illegal why) ↔ ∀ r ∈ opcodeMap, r.selects w = false)

/-- Words written out from the spec's encodings (R74 to R78, 95_test_vectors.md) decode to the commands they stand for. -/
def Obligations.SpecWordsDecode : Prop :=
  decode 0x10000014#32 = .command (.init 20) ∧ decode 0x200017FF#32 = .command (.setChannel 23 255) ∧
  decode 0x30000300#32 = .command (.setChannels 3) ∧ decode 0x400004C8#32 = .command (.entry 4 200) ∧
  decode 0x80000500#32 = .command (.qPwmReg 5) ∧ decode 0x90001700#32 = .command (.qGainReg 23) ∧
  decode 0xA0002200#32 = .command (.qWithAi 0x22) ∧ decode 0xB0000014#32 = .command (.qGainCode 20)

/-- R81: a header word of one of its three kinds decodes as ILLEGAL, no other word does, and such a word, like an ENTRY
word, consumed as a header ends its command with ILLEGAL_COMMAND and nothing else happens. -/
def Obligations.IllegalHeaderEndsIllegalCommand : Prop :=
  (∀ w : CmdWord, IllegalHeader w ↔ ∃ why, decode w = .illegal why) ∧ IllegalHeader 0#32 ∧
  ∀ (s : State) (w : CmdWord) (ws : List CmdWord), s.mode = .idle → s.port = w :: ws →
    (IllegalHeader w ∨ ∃ a v, decode w = .command (.entry a v)) →
    step s = .next (State.reported { s with port := ws } (ResultFields.pack { status := 4 }))

/-! ## The step -/

/-- With CMD_READY = 1 and a word on the port that decodes to a command, the step takes the word off the port and is
`exec` of that command. -/
def Obligations.StepRunsDecodedCommand : Prop :=
  ∀ (s : State) (w : CmdWord) (ws : List CmdWord) (i : Instr),
    s.mode ≠ .exec → s.port = w :: ws → decode w = .command i →
    i.WellFormed ∧ step s = exec i { s with port := ws }

/-- R31: CMD_READY is 1 in IDLE and BATCH and 0 in EXEC, and a step takes a word off the port (the first, and only that
one) only when CMD_READY = 1; then it does if there is one. -/
def Obligations.WordTakenOnlyWhenReady : Prop :=
  ∀ s : State,
    (s.cmdReady = true ↔ s.mode = .idle ∨ s.mode = .batch) ∧
    (s.cmdReady = true → ∃ t, step s = .next t ∧ t.port = s.port.tail) ∧
    (s.cmdReady = false → ∀ t, step s = .next t → t.port = s.port)

/-- A command handed to `exec` while MODE = EXEC is turned away with no effect: the model's reading of R23 and R31 (log 8).
No step hands one over then. -/
def Obligations.NoCommandAcceptedInExec : Prop :=
  ∀ (i : Instr) (s : State), s.mode = .exec → exec i s = .next s

/-- R217: with a transport call outstanding that does not return, the block stays in EXEC for ever, with CMD_READY = 0, and
writes no RESULT: after any number of steps the state is the same. -/
def Obligations.UnansweredCallHangs : Prop :=
  ∀ (s : State) (x : Xact) (p : Phase), s.mode = .exec → s.xphase = some p → s.xact = some x → s.answers = [] →
    ∀ n, Sys2Proof.core.run n s = .next s ∧ s.cmdReady = false

/-- R12: whatever the transport answers to an outstanding call, the next step takes it: the call is observed first, with
that response. -/
def Obligations.EveryResponseIsTaken : Prop :=
  ∀ (s : State) (x : Xact) (p : Phase) (r : Answer),
    s.mode = .exec → s.xphase = some p → s.xact = some x → s.answers = [] →
    ∃ t events, step (s.receive (.answer r)) = .next t ∧
      t.log = s.log ++ .call (x.callAt s.busAddr p) (some r) :: events

/-- It makes no difference when the transport answers: a command that runs with the first responses, waits, and goes on
with the others ends as with all of them at once (R57, R58). -/
def Obligations.LateAnswersMakeNoDifference : Prop :=
  ∀ (i : Instr) (s t : State) (first later : List Answer), s.mode ≠ .exec →
    exec i { s with answers := first } = .next t →
    exec i { s with answers := first ++ later } =
      if t.mode = .exec then step { t with answers := t.answers ++ later }
      else .next { t with answers := t.answers ++ later }

/-! ## Register map, converter, RESULT -/

/-- R101, R102, R103: the two address sums, with no carry out of 7 bits; the ranges are disjoint and hold no MODE1. -/
def Obligations.RegisterAddresses : Prop :=
  ∀ ch : Channel, (pwmRegister ch).toNat = 0x0A + ch.val ∧ (gainRegister ch).toNat = 0x22 + ch.val ∧
    ∀ ch' : Channel, pwmRegister ch ≠ gainRegister ch' ∧ pwmRegister ch ≠ 0 ∧ gainRegister ch ≠ 0

/-- R104: `with_autoincrement` sets exactly bit 7 and leaves the other 7 bits unchanged. -/
def Obligations.AutoincrementSetsBitSeven : Prop :=
  ∀ a : RegAddr, (withAutoincrement a).toNat = 128 + a.toNat ∧ (withAutoincrement a).getLsbD 7 = true ∧
    (withAutoincrement a).setWidth 7 = a

/-- R106: `decode_register` names every address of the space, and is the inverse of the two address functions. -/
def Obligations.DecodeRegisterNames : Prop :=
  (∀ a : RegAddr, decodeRegister a = .mode1 ↔ a = 0) ∧
  (∀ (a : RegAddr) (n : Nat), decodeRegister a = .pwm n ↔ n < 24 ∧ a.toNat = 0x0A + n) ∧
  (∀ (a : RegAddr) (n : Nat), decodeRegister a = .gain n ↔ n < 24 ∧ a.toNat = 0x22 + n) ∧
  (∀ a : RegAddr, decodeRegister a = .unnamed ↔ (0x01 ≤ a.toNat ∧ a.toNat ≤ 0x09) ∨ 0x3A ≤ a.toNat) ∧
  (∀ ch : Channel, decodeRegister (pwmRegister ch) = .pwm ch.val ∧ decodeRegister (gainRegister ch) = .gain ch.val)

/-- R170, R172: the gain code, its saturation, its range, its monotony. -/
def Obligations.GainCodeIsSaturatingFloor : Prop :=
  (∀ c : Byte, c.toNat < 57 →
    (convertCurrentToGain c).toNat = c.toNat * 255 / 57 ∧ (convertCurrentToGain c).toNat ≤ 250) ∧
  (∀ c : Byte, 57 ≤ c.toNat → convertCurrentToGain c = 255) ∧
  (∀ c d : Byte, c.toNat ≤ d.toNat → (convertCurrentToGain c).toNat ≤ (convertCurrentToGain d).toNat)

/-- The layout of R26: each field of a RESULT written by a command reads as it was given, VALID as 1, bit 15 as 0. -/
def Obligations.ResultLayout : Prop :=
  ∀ f : ResultFields, f.pack.extractLsb' 0 3 = f.status ∧ f.pack.extractLsb' 3 2 = f.phase ∧
    f.pack.extractLsb' 5 2 = f.cause ∧ f.pack.getLsbD 7 = true ∧ f.pack.extractLsb' 8 7 = f.regaddr ∧
    f.pack.getLsbD 15 = false ∧ f.pack.extractLsb' 16 8 = f.index ∧ f.pack.extractLsb' 24 8 = f.value

/-- The codes of R27, R28 and R29. -/
def Obligations.ResultCodes : Prop :=
  (statusOk = 0 ∧ statusCode .invalidChannel = 1 ∧ (∀ a p, statusCode (.busTransactionFailed a p) = 2) ∧
    (∀ f, statusCode (.partialBatchFailure f) = 3) ∧ statusCode .illegalCommand = 4) ∧
  (phaseCode none = 0 ∧ phaseCode (some .callBegin) = 1 ∧ phaseCode (some .callWrite) = 2 ∧
    phaseCode (some .callEnd) = 3) ∧
  (causeCode .invalidChannel = 1 ∧ causeCode .busTransactionFailed = 2 ∧ causeCode .illegalCommand = 3)

/-- The two writes of R206, with the codes and fields of R201: raising an error writes RESULT with the error's code, the
fields it records and 0 elsewhere, makes MODE IDLE, makes no transport call, and does nothing else. (That the rest of the
command is not executed is said of each command, as in `InitWritesModeThenGains`.) -/
def Obligations.RaiseWritesResultAndGoesIdle : Prop :=
  ∀ s : State,
    s.raise .invalidChannel = s.reported (ResultFields.pack { status := 1 }) ∧
    (∀ a p, s.raise (.busTransactionFailed a p) =
      s.reported (ResultFields.pack { status := 2, phase := phaseCode (some p), regaddr := a })) ∧
    (∀ f, s.raise (.partialBatchFailure f) = s.reported (ResultFields.pack
      { status := 3, phase := phaseCode f.phase, cause := causeCode f.cause, regaddr := f.regaddr, index := f.index })) ∧
    s.raise .illegalCommand = s.reported (ResultFields.pack { status := 4 })

/-! ## The commands: what each does, and that it completes -/

/-- R107: `Q_PWM_REG ch` puts 0x0A + ch in VALUE; a channel of 24 or more is InvalidChannel; nothing else changes. -/
def Obligations.QueryPwmRegister : Prop :=
  ∀ a : Byte, decode (0x8000#16 ++ (a ++ 0x00#8)) = .command (.qPwmReg a) ∧
    ∀ s : State, s.mode = .idle →
      (a.toNat < 24 → exec (.qPwmReg a) s = .next (s.reported
        (ResultFields.pack { status := 0, value := BitVec.ofNat 8 (0x0A + a.toNat) }))) ∧
      (24 ≤ a.toNat → exec (.qPwmReg a) s = .next (s.reported (ResultFields.pack { status := 1 })))

/-- R108: `Q_GAIN_REG ch` puts 0x22 + ch in VALUE; a channel of 24 or more is InvalidChannel; nothing else changes. -/
def Obligations.QueryGainRegister : Prop :=
  ∀ a : Byte, decode (0x9000#16 ++ (a ++ 0x00#8)) = .command (.qGainReg a) ∧
    ∀ s : State, s.mode = .idle →
      (a.toNat < 24 → exec (.qGainReg a) s = .next (s.reported
        (ResultFields.pack { status := 0, value := BitVec.ofNat 8 (0x22 + a.toNat) }))) ∧
      (24 ≤ a.toNat → exec (.qGainReg a) s = .next (s.reported (ResultFields.pack { status := 1 })))

/-- R109: `Q_WITH_AI a` puts 0x80 | a in VALUE and changes nothing else; a word with `A[7] = 1` matches no row and is
ILLEGAL_COMMAND. -/
def Obligations.QueryWithAutoincrement : Prop :=
  (∀ a : RegAddr, decode (0xA000#16 ++ ((0#1 ++ a) ++ 0x00#8)) = .command (.qWithAi (a.setWidth 8)) ∧
    ∀ s : State, s.mode = .idle → exec (.qWithAi (a.setWidth 8)) s = .next (s.reported
      (ResultFields.pack { status := 0, value := 0x80#8 ||| a.setWidth 8 }))) ∧
  ∀ (a : RegAddr) (s : State) (ws : List CmdWord), s.mode = .idle →
    s.port = (0xA000#16 ++ ((1#1 ++ a) ++ 0x00#8)) :: ws →
    step s = .next (State.reported { s with port := ws } (ResultFields.pack { status := 4 }))

/-- R174 with R170: `Q_GAIN_CODE c` puts the gain code of c in VALUE and changes nothing else. -/
def Obligations.QueryGainCode : Prop :=
  ∀ c : Byte, decode (0xB00000#24 ++ c) = .command (.qGainCode c) ∧
    ∀ s : State, s.mode = .idle → exec (.qGainCode c) s = .next (s.reported
      (ResultFields.pack
        { status := 0, value := BitVec.ofNat 8 (if 57 ≤ c.toNat then 255 else c.toNat * 255 / 57) }))

/-- R140: an invalid channel is reported before any bus activity; else one transaction `[0x0A + ch, v]` is made, and its
outcome `r`, whichever it is, is reported. -/
def Obligations.SetChannelWritesOneLevel : Prop :=
  ∀ a v : Byte, decode (0x2000#16 ++ (a ++ v)) = .command (.setChannel a v) ∧
    ∀ s : State, s.mode = .idle →
      (24 ≤ a.toNat → exec (.setChannel a v) s = .next (s.reported (ResultFields.pack { status := 1 }))) ∧
      (a.toNat < 24 → ∀ (r : XactResult) (rest : List Answer), s.answers = drawsFor r ++ rest →
        exec (.setChannel a v) s = .next (State.reported
          { s with xphase := none, xact := none, answers := rest,
                   log := s.log ++ transactionEvents s.busAddr [0x0A#8 + a, v] r }
          (transactionReport (0x0A#7 + a.setWidth 7) r)))

/-- R131, R132, R133, R134: the mode write, then only if it ended with OK the gain write, 24 times the converted current; the
first failure ends the command and is reported with its register. -/
def Obligations.InitWritesModeThenGains : Prop :=
  ∀ c : Byte, decode (0x100000#24 ++ c) = .command (.init c) ∧
    ∀ (s : State) (rest : List Answer), s.mode = .idle →
      (∀ p : Phase, s.answers = drawsFor (.fail p) ++ rest →
        exec (.init c) s = .next (State.reported
          { s with xphase := none, xact := none, answers := rest,
                   log := s.log ++ transactionEvents s.busAddr [0x80#8, Config.mode1AiAll] (.fail p) }
          (transactionReport 0x00 (.fail p)))) ∧
      (∀ r : XactResult, s.answers = drawsFor .ok ++ (drawsFor r ++ rest) →
        exec (.init c) s = .next (State.reported
          { s with xphase := none, xact := none, answers := rest,
                   log := s.log ++ transactionEvents s.busAddr [0x80#8, Config.mode1AiAll] .ok ++
                     transactionEvents s.busAddr (0xA2#8 :: List.replicate 24 (convertCurrentToGain c)) r }
          (transactionReport 0x22 r)))

/-- R145: an empty batch completes at once, any other header opens a batch of n entry slots and writes no RESULT. -/
def Obligations.SetChannelsOpensBatch : Prop :=
  ∀ n : Byte, decode (0x3000#16 ++ (n ++ 0x00#8)) = .command (.setChannels n) ∧
    ∀ s : State, s.mode = .idle →
      (n = 0 → exec (.setChannels n) s = .next (s.reported (ResultFields.pack { status := 0 }))) ∧
      (n ≠ 0 → exec (.setChannels n) s =
        .next { s with batchRem := n, batchIdx := 0, batchFail := none, mode := .batch })

/-- R146, R147 and R82: a word in an entry slot. After a latched failure it is discarded, whatever it is. Else a word that is
no ENTRY row's is latched as ILLEGAL_COMMAND and an invalid channel as INVALID_CHANNEL, both with no bus activity, and a
valid entry makes one transaction `[0x0A + ch, v]`, a failure of which is latched. The slot ends, the last one completing
the batch (`State.slotEnded`). -/
def Obligations.EntrySlot : Prop :=
  (∀ (s : State) (w : CmdWord) (ws : List CmdWord), s.mode = .batch → s.port = w :: ws →
    (∀ f, s.batchFail = some f → step s = .next (State.slotEnded { s with port := ws } (some f))) ∧
    (s.batchFail = none → w &&& 0xFFFF0000#32 ≠ 0x40000000#32 → step s =
      .next (State.slotEnded { s with port := ws } (some ⟨s.batchIdx, .illegalCommand, none, 0⟩)))) ∧
  ∀ a v : Byte, decode (0x4000#16 ++ (a ++ v)) = .command (.entry a v) ∧
    ∀ s : State, s.mode = .batch →
      (∀ f, s.batchFail = some f → exec (.entry a v) s = .next (s.slotEnded (some f))) ∧
      (s.batchFail = none → 24 ≤ a.toNat → exec (.entry a v) s =
        .next (s.slotEnded (some ⟨s.batchIdx, .invalidChannel, none, 0⟩))) ∧
      (s.batchFail = none → a.toNat < 24 → ∀ (r : XactResult) (rest : List Answer), s.answers = drawsFor r ++ rest →
        exec (.entry a v) s = .next (State.slotEnded
          { s with xphase := none, xact := none, answers := rest,
                   log := s.log ++ transactionEvents s.busAddr [0x0A#8 + a, v] r }
          (transactionLatch s.batchIdx (0x0A#7 + a.setWidth 7) r)))

/-- R149: an ENTRY word consumed in IDLE raises IllegalCommand, with no bus activity. -/
def Obligations.EntryOutsideBatchIsIllegal : Prop :=
  ∀ (a v : Byte) (s : State), s.mode = .idle →
    exec (.entry a v) s = .next (s.reported (ResultFields.pack { status := 4 }))

/-- While a call of SET_CHANNEL's transaction has no response, the block is in EXEC, XPHASE names that call (R25), the
transaction is open, and RESULT still holds the previous command's value (R30, R58). That only the calls before it are
observed yet is the model's choice (log 20). -/
def Obligations.SetChannelWaitsForEachCall : Prop :=
  ∀ (a v : Byte) (s : State) (p : Phase), s.mode = .idle → a.toNat < 24 → s.answers = drawsBefore p →
    exec (.setChannel a v) s = .next
      { s with mode := .exec, xphase := some p, xact := some ⟨0x0A#8 + a, [v], .setChannel⟩, answers := [],
               log := s.log ++ eventsBefore s.busAddr [0x0A#8 + a, v] p }

/-- The same for INIT, at each call of each of its two transactions: in the first, the mode write is open and nothing of the
gain write is made; in the second, the mode write is whole and the gain write is open (R23, R25, R47, R131). That only
the calls before the outstanding one are observed yet is the model's choice (log 20). -/
def Obligations.InitWaitsForEachCall : Prop :=
  ∀ (c : Byte) (s : State) (p : Phase), s.mode = .idle →
    (s.answers = drawsBefore p →
      exec (.init c) s = .next
        { s with mode := .exec, xphase := some p, answers := [],
                 xact := some ⟨0x80#8, [Config.mode1AiAll], .initMode (convertCurrentToGain c)⟩,
                 log := s.log ++ eventsBefore s.busAddr [0x80#8, Config.mode1AiAll] p }) ∧
    (s.answers = drawsFor .ok ++ drawsBefore p →
      exec (.init c) s = .next
        { s with mode := .exec, xphase := some p, answers := [],
                 xact := some ⟨0xA2#8, List.replicate 24 (convertCurrentToGain c), .initGain⟩,
                 log := s.log ++ transactionEvents s.busAddr [0x80#8, Config.mode1AiAll] .ok ++
                   eventsBefore s.busAddr (0xA2#8 :: List.replicate 24 (convertCurrentToGain c)) p })

/-- The same for ENTRY in an entry slot with no failure latched: the batch registers are unchanged while its call has no
response (R23, R24, R25, R47, R146). That only the calls before it are observed yet is the model's choice (log 20). -/
def Obligations.EntryWaitsForEachCall : Prop :=
  ∀ (a v : Byte) (s : State) (p : Phase), s.mode = .batch → s.batchFail = none → a.toNat < 24 →
    s.answers = drawsBefore p →
    exec (.entry a v) s = .next
      { s with mode := .exec, xphase := some p, xact := some ⟨0x0A#8 + a, [v], .entry⟩, answers := [],
               log := s.log ++ eventsBefore s.busAddr [0x0A#8 + a, v] p }

/-! ## Whole batches -/

/-- A batch of valid entries whose transactions all succeed: one single-register transaction an entry, in the given order,
never merged, then one RESULT (R145 to R147, R150). One step a word, with all its answered calls, and so the count of
steps, is the model's choice (DESIGN CHOICE, log 1). -/
def Obligations.BatchIssuesItsEntriesInOrder : Prop :=
  ∀ (s : State) (es : List (Channel × Byte)) (more : List CmdWord) (rest : List Answer),
    s.Inv → s.mode = .idle → es.length ≤ 255 →
    s.port = encode (.setChannels (BitVec.ofNat 8 es.length)) ::
      (es.map fun e => encode (.entry (BitVec.ofNat 8 e.1.val) e.2)) ++ more →
    s.answers = List.replicate (3 * es.length) .accepted ++ rest →
    Sys2Proof.core.run (es.length + 1) s = .next (State.reported
      { s with port := more, answers := rest,
               log := s.log ++ es.flatMap fun e =>
                 transactionEvents s.busAddr [0x0A#8 + BitVec.ofNat 8 e.1.val, e.2] .ok }
      (ResultFields.pack { status := 0 }))

/-- R148: after the first failing entry no transaction is issued, its words are consumed and discarded, and the one RESULT
names the first failing index, counted from 0, and its cause. One step a word, with all its answered calls, and so the
count of steps, is the model's choice (DESIGN CHOICE, log 1). -/
def Obligations.BatchStopsAtFirstFailure : Prop :=
  ∀ (s : State) (before : List (Channel × Byte)) (w : CmdWord) (after more : List CmdWord)
    (draws rest : List Answer) (events : List Event) (cause : Cause) (phase : Option Phase) (regaddr : RegAddr),
    s.Inv → s.mode = .idle → before.length + 1 + after.length ≤ 255 →
    SlotFailure s.busAddr w draws events cause phase regaddr →
    s.port = encode (.setChannels (BitVec.ofNat 8 (before.length + 1 + after.length))) ::
      (before.map fun e => encode (.entry (BitVec.ofNat 8 e.1.val) e.2)) ++ w :: after ++ more →
    s.answers = List.replicate (3 * before.length) .accepted ++ draws ++ rest →
    Sys2Proof.core.run (before.length + 1 + after.length + 1) s = .next (State.reported
      { s with port := more, answers := rest,
               log := s.log ++ (before.flatMap fun e =>
                 transactionEvents s.busAddr [0x0A#8 + BitVec.ofNat 8 e.1.val, e.2] .ok) ++ events }
      (ResultFields.pack
        { status := 3, phase := phaseCode phase, cause := causeCode cause, regaddr := regaddr,
          index := BitVec.ofNat 8 before.length }))

/-- R80: a SET_CHANNELS header commits the block to consume exactly n further words, whatever they are, and the next word is
a header again; with TRANSPORT_FAIR for its transactions the command completes. One step a word, with all its answered
calls, and so the count of steps, is the model's choice (DESIGN CHOICE, log 1). -/
def Obligations.BatchTakesExactlyItsWords : Prop :=
  ∀ (s : State) (n : Byte) (words more : List CmdWord), s.mode = .idle → words.length = n.toNat →
    s.port = encode (.setChannels n) :: words ++ more → TransportFair (3 * n.toNat) s →
    ∃ t, Sys2Proof.core.run (n.toNat + 1) s = .next t ∧ t.mode = .idle ∧ t.port = more ∧ resultValid t.result = 1

/-! ## Frames -/

/-- What SET_CHANNEL leaves unchanged, however far the transport answers: the other registers of the block, RESULT while it
waits, and every address of the chip but the one PWM register it writes. -/
def Obligations.SetChannelFrame : Prop :=
  ∀ (a v : Byte) (s t : State), s.mode = .idle → exec (.setChannel a v) s = .next t →
    t.busAddr = s.busAddr ∧ t.batchRem = s.batchRem ∧ t.batchIdx = s.batchIdx ∧ t.batchFail = s.batchFail ∧
    t.port = s.port ∧ (∃ used, s.answers = used ++ t.answers) ∧ (t.mode = .exec → t.result = s.result) ∧
    ∀ x : Nat, (∀ ch, channelOf a = some ch → x ≠ (pwmRegister ch).toNat) → t.img x = s.img x

/-- What INIT leaves unchanged, however far the transport answers: the other registers of the block, RESULT while it waits, and
every address of the chip but MODE1 and the 24 gain registers. -/
def Obligations.InitFrame : Prop :=
  ∀ (c : Byte) (s t : State), s.mode = .idle → exec (.init c) s = .next t →
    t.busAddr = s.busAddr ∧ t.batchRem = s.batchRem ∧ t.batchIdx = s.batchIdx ∧ t.batchFail = s.batchFail ∧
    t.port = s.port ∧ (∃ used, s.answers = used ++ t.answers) ∧ (t.mode = .exec → t.result = s.result) ∧
    ∀ x : Nat, x ≠ Config.mode1Addr.toNat → (∀ ch, x ≠ (gainRegister ch).toNat) → t.img x = s.img x

/-- What ENTRY in a slot leaves unchanged, however far the transport answers: BUS_ADDR, the port, RESULT until the batch
completes, the batch registers while it waits, and every address of the chip but the one PWM register it writes. -/
def Obligations.EntryFrame : Prop :=
  ∀ (a v : Byte) (s t : State), s.mode = .batch → exec (.entry a v) s = .next t →
    t.busAddr = s.busAddr ∧ t.port = s.port ∧ (∃ used, s.answers = used ++ t.answers) ∧
    (t.mode ≠ .idle → t.result = s.result) ∧
    (t.mode = .exec → t.batchRem = s.batchRem ∧ t.batchIdx = s.batchIdx ∧ t.batchFail = s.batchFail) ∧
    ∀ x : Nat, (∀ ch, channelOf a = some ch → x ≠ (pwmRegister ch).toNat) → t.img x = s.img x

/-- The commands with no bus activity (the four queries, SET_CHANNELS, ENTRY outside a batch) leave BUS_ADDR, XPHASE, the
responses, the port and every address of the chip unchanged, add at most a RESULT write to the observation, and, but for
SET_CHANNELS, leave the batch registers. -/
def Obligations.NoBusCommandsFrame : Prop :=
  ∀ (i : Instr) (s t : State), s.mode = .idle →
    ((∃ a, i = .qPwmReg a) ∨ (∃ a, i = .qGainReg a) ∨ (∃ a, i = .qWithAi a) ∨ (∃ c, i = .qGainCode c) ∨
      (∃ n, i = .setChannels n) ∨ ∃ a v, i = .entry a v) →
    exec i s = .next t →
    t.busAddr = s.busAddr ∧ t.xphase = s.xphase ∧ t.xact = s.xact ∧ t.answers = s.answers ∧ t.port = s.port ∧
    (t.log = s.log ∧ t.result = s.result ∨ t.log = s.log ++ [.result t.result]) ∧
    ((∀ n, i ≠ .setChannels n) →
      t.batchRem = s.batchRem ∧ t.batchIdx = s.batchIdx ∧ t.batchFail = s.batchFail) ∧
    ∀ x : Nat, t.img x = s.img x

/-! ## The chip register image -/

/-- R55: the image starts Unknown; a transaction that ended with OK writes its registers: the one of a single write, or the
first of a block write and then, while the auto-increment scope covers them, the following ones; the others it would
write become Unknown, and no other address changes. -/
def Obligations.CommittedTransactionInImage : Prop :=
  (∀ x : Nat, (imageOf []).read x = none) ∧
  (∀ (m : Memory) (a : RegAddr) (v : Byte) (x : Nat), m.wf = true →
    (m.observe (.xact [(0#1 ++ a : BitVec 8), v] .ok)).read x = if x = a.toNat then some v else m.read x) ∧
  ∀ (m : Memory) (a : RegAddr) (v : Byte) (vs : List Byte) (x : Nat), m.wf = true →
    let after := m.observe (.xact ((1#1 ++ a : BitVec 8) :: v :: vs) .ok)
    after.wf = true ∧
    after.read x =
      if x = a.toNat then some v
      else if a.toNat < x ∧ x ≤ a.toNat + vs.length then
        if x ≤ 0x39 ∧ (if a = 0 then some v else m.read 0) = some Config.mode1AiAll then vs[x - a.toNat - 1]? else none
      else m.read x

/-- R56: after a transaction that failed at any phase, every address that its bytes would have written is Unknown, and no
other address changes. -/
def Obligations.FailedTransactionInImage : Prop :=
  ∀ (m : Memory) (a : RegAddr) (v : Byte) (vs : List Byte) (p : Phase) (x : Nat), m.wf = true →
    (m.observe (.xact [(0#1 ++ a : BitVec 8), v] (.fail p))).read x = (if x = a.toNat then none else m.read x) ∧
    (m.observe (.xact ((1#1 ++ a : BitVec 8) :: v :: vs) (.fail p))).read x =
      if a.toNat ≤ x ∧ x ≤ a.toNat + vs.length then none else m.read x

/-- SET_CHANNEL with its transaction answered: the chip's PWM register is known to hold the level after OK, and Unknown after
a failure (R50, R55, R56). -/
def Obligations.SetChannelImage : Prop :=
  ∀ (a v : Byte) (s : State) (r : XactResult) (rest : List Answer), s.mode = .idle → a.toNat < 24 →
    s.answers = drawsFor r ++ rest →
    ∃ t, exec (.setChannel a v) s = .next t ∧
      t.img (0x0A + a.toNat) = (match r with | .ok => some v | .fail _ => none)

/-- R135: when INIT ends with STATUS = OK, MODE1 is known to hold the pattern and every gain register the converted current. -/
def Obligations.InitGuarantee : Prop :=
  ∀ (c : Byte) (s t : State), s.mode = .idle → exec (.init c) s = .next t → t.mode = .idle →
    resultStatus t.result = 0 →
    t.img 0x00 = some Config.mode1AiAll ∧ ∀ i : Nat, i < 24 → t.img (0x22 + i) = some (convertCurrentToGain c)

/-- A failed INIT (R52, R56): after a failed mode write MODE1 is Unknown and the gains are as before; after a failed gain write
MODE1 holds the pattern and every gain register is Unknown. -/
def Obligations.FailedInitImage : Prop :=
  ∀ (c : Byte) (s : State) (p : Phase) (rest : List Answer) (i : Nat), s.mode = .idle → i < 24 →
    (s.answers = drawsFor (.fail p) ++ rest → ∃ t, exec (.init c) s = .next t ∧
      t.img 0x00 = none ∧ t.img (0x22 + i) = s.img (0x22 + i)) ∧
    (s.answers = drawsFor .ok ++ (drawsFor (.fail p) ++ rest) → ∃ t, exec (.init c) s = .next t ∧
      t.img 0x00 = some Config.mode1AiAll ∧ t.img (0x22 + i) = none)

/-- R136: an INIT issued again issues the same transactions again and leaves the same image. -/
def Obligations.InitAgainLeavesSameImage : Prop :=
  ∀ (c : Byte) (s t u : State) (rest : List Answer), s.mode = .idle →
    s.answers = List.replicate 12 .accepted ++ rest → exec (.init c) s = .next t → exec (.init c) t = .next u →
    (∃ events, t.log = s.log ++ events ∧ u.log = t.log ++ events) ∧ u.result = t.result ∧
    ∀ x : Nat, u.img x = t.img x

/-! ## Reset -/

/-- R36: the value of every piece of block state right after reset; no register of the chip is known. -/
def Obligations.ResetValues : Prop :=
  State.reset.busAddr = Config.busAddr ∧ State.reset.mode = .idle ∧ State.reset.xphase = none ∧
  State.reset.batchRem = 0 ∧ State.reset.batchIdx = 0 ∧ State.reset.batchFail = none ∧
  State.reset.result = 0x00000000#32 ∧ State.reset.cmdReady = true ∧ ∀ a : Nat, State.reset.img a = none

/-- R230, R231, R232: a reset, at any point, gives every piece of block state its reset value; a command in progress is
abandoned with no RESULT written for it, and every address is Unknown. That the words presented and the responses drawn
stay, and that the abandoned call is then observed with no response, is the model's choice (DESIGN CHOICE, log 7,
log 20). -/
def Obligations.ResetAbandonsCommand : Prop :=
  ∀ s : State, ∃ events,
    s.receive .reset = { State.reset with port := s.port, answers := s.answers, log := s.log ++ events ++ [.reset] } ∧
    (∀ x p, s.mode = .exec → s.xphase = some p → s.xact = some x →
      events = [.call (x.callAt s.busAddr p) none]) ∧
    (s.mode ≠ .exec → events = []) ∧ events.length ≤ 1 ∧ (∀ v, .result v ∉ events) ∧
    ∀ a : Nat, (s.receive .reset).img a = none

/-! ## The whole machine -/

/-- The invariant holds right after reset. -/
def Obligations.ResetMeetsInvariant : Prop := State.reset.Inv

/-- Every step keeps the invariant, from every state that meets it. -/
def Obligations.StepKeepsInvariant : Prop :=
  ∀ s t : State, s.Inv → step s = .next t → t.Inv

/-- Every input from outside keeps the invariant. -/
def Obligations.InputKeepsInvariant : Prop :=
  ∀ (s : State) (i : Input), s.Inv → (s.receive i).Inv

/-- No reachable state stops: the block has no fatal condition (R200), whatever words, responses and resets come. -/
def Obligations.ReachableNeverStops : Prop :=
  ∀ s : State, Reachable s → ∃ t, step s = .next t

/-- R42 and R45: in any run every byte list written is of one of two shapes, one payload byte with AI = 0 or one or more with
AI = 1, and every register it is destined for is MODE1 or in 0x0A to 0x39. -/
def Obligations.OnlyNamedRegistersWritten : Prop :=
  ∀ (s : State) (bytes : List Byte) (r : Option Answer), Reachable s →
    .call (.transportWrite bytes) r ∈ s.log →
    ∃ (b : Byte) (payload : List Byte), bytes = b :: payload ∧
      (b.getLsbD 7 = false → payload.length = 1) ∧ (b.getLsbD 7 = true → 1 ≤ payload.length) ∧
      ∀ i : Nat, i < payload.length →
        (b.toNat % 128 + i = 0x00 ∨ (0x0A ≤ b.toNat % 128 + i ∧ b.toNat % 128 + i ≤ 0x39))

/-- Every step adds to the observation and takes nothing back, leaves BUS_ADDR, and opens a session to no other address than
BUS_ADDR (R21, R48, R57). -/
def Obligations.StepAddressesOnlyBusAddr : Prop :=
  ∀ s t : State, step s = .next t → t.busAddr = s.busAddr ∧
    ∃ events, t.log = s.log ++ events ∧
      ∀ (a : BusAddr) (r : Option Answer), .call (.transportBegin a) r ∈ events → a = s.busAddr

/-- R130, R58: of the events a step adds, a RESULT write is only ever the last, so after every call of its command; it is there
exactly when the step ends a command, that is leaves the block IDLE having taken a word or been in EXEC; and RESULT then
holds it, else what it held. -/
def Obligations.OneResultPerCommand : Prop :=
  ∀ s t : State, s.Inv → step s = .next t →
    ∃ events, (∀ e ∈ events, ∀ v, e ≠ .result v) ∧
      (t.mode = .idle ∧ (s.mode = .exec ∨ s.port ≠ []) → t.log = s.log ++ events ++ [.result t.result]) ∧
      (¬ (t.mode = .idle ∧ (s.mode = .exec ∨ s.port ≠ [])) → t.log = s.log ++ events ∧ t.result = s.result)

/-- R27 to R30: in any run RESULT, and every value ever written to it, has an assigned code, fields only where they apply, and
its reserved bit 0; RESULT itself may still hold its reset value. -/
def Obligations.ReachableResultsAreLegal : Prop :=
  ∀ s : State, Reachable s →
    (s.result = 0 ∨ ResultLegal s.result) ∧ ∀ v, Event.result v ∈ s.log → ResultLegal v

/-- R37: VALID = 0 means that no command has completed since reset. -/
def Obligations.ValidTellsCompletion : Prop :=
  ∀ s : State, Reachable s → (resultValid s.result = 0 ↔ ∀ v, Event.result v ∉ sinceReset s.log)

/-- R32: no command's behaviour depends on the outcome of an earlier one: with another RESULT and another past, a command
consumed in IDLE adds the same events and leaves everything else the same. -/
def Obligations.HistoryDoesNotMatter : Prop :=
  ∀ (i : Instr) (s t : State) (result : BitVec 32) (log : List Event), s.mode = .idle → exec i s = .next t →
    ∃ events, t.log = s.log ++ events ∧
      exec i { s with result := result, log := log } =
        .next { t with log := log ++ events, result := if t.mode = .idle then t.result else result }

/-! ## Assembler -/

/-- R84: for each of the eight forms, its mnemonic with its operands is that form, a line of it whose operands fit is the one
word that its command makes of them, each operand in its own place, and that word decodes to the command; an operand that
does not fit its field is an error and makes no word. -/
def Obligations.AssembledLineDecodes : Prop :=
  (∀ (l : AsmLine) (i : Instr), l.instr = some i → assemble l = some [encode i] ∧ decode (encode i) = .command i) ∧
  (∀ c, lineOf "INIT".toList [c] = some (.init c) ∧
    (c ≤ 255 → assemble (.init c) = some [encode (.init (BitVec.ofNat 8 c))]) ∧
    (assemble (.init c) = none ↔ 255 < c)) ∧
  (∀ a v, lineOf "SET_CHANNEL".toList [a, v] = some (.setChannel a v) ∧
    (a ≤ 255 → v ≤ 255 →
      assemble (.setChannel a v) = some [encode (.setChannel (BitVec.ofNat 8 a) (BitVec.ofNat 8 v))]) ∧
    (assemble (.setChannel a v) = none ↔ 255 < a ∨ 255 < v)) ∧
  (∀ n, lineOf "SET_CHANNELS".toList [n] = some (.setChannels n) ∧
    (n ≤ 255 → assemble (.setChannels n) = some [encode (.setChannels (BitVec.ofNat 8 n))]) ∧
    (assemble (.setChannels n) = none ↔ 255 < n)) ∧
  (∀ a v, lineOf "ENTRY".toList [a, v] = some (.entry a v) ∧
    (a ≤ 255 → v ≤ 255 → assemble (.entry a v) = some [encode (.entry (BitVec.ofNat 8 a) (BitVec.ofNat 8 v))]) ∧
    (assemble (.entry a v) = none ↔ 255 < a ∨ 255 < v)) ∧
  (∀ a, lineOf "Q_PWM_REG".toList [a] = some (.qPwmReg a) ∧
    (a ≤ 255 → assemble (.qPwmReg a) = some [encode (.qPwmReg (BitVec.ofNat 8 a))]) ∧
    (assemble (.qPwmReg a) = none ↔ 255 < a)) ∧
  (∀ a, lineOf "Q_GAIN_REG".toList [a] = some (.qGainReg a) ∧
    (a ≤ 255 → assemble (.qGainReg a) = some [encode (.qGainReg (BitVec.ofNat 8 a))]) ∧
    (assemble (.qGainReg a) = none ↔ 255 < a)) ∧
  (∀ a, lineOf "Q_WITH_AI".toList [a] = some (.qWithAi a) ∧
    (a ≤ 127 → assemble (.qWithAi a) = some [encode (.qWithAi (BitVec.ofNat 8 a))]) ∧
    (assemble (.qWithAi a) = none ↔ 127 < a)) ∧
  ∀ c, lineOf "Q_GAIN_CODE".toList [c] = some (.qGainCode c) ∧
    (c ≤ 255 → assemble (.qGainCode c) = some [encode (.qGainCode (BitVec.ofNat 8 c))]) ∧
    (assemble (.qGainCode c) = none ↔ 255 < c)

/-- R85: the batch pseudo-instruction of at most 255 entries expands to its header and its entries in order. -/
def Obligations.BatchPseudoInstructionExpands : Prop :=
  ∀ es : List (Byte × Byte), es.length ≤ 255 →
    assemble (.batch (es.map fun e => (e.1.toNat, e.2.toNat))) =
      some (encode (.setChannels (BitVec.ofNat 8 es.length)) :: es.map fun e => encode (.entry e.1 e.2))
end

