-- ==== Sys2Proof/Laws/Decode.lean ====
section
/-! SUPPORT. Laws of the command word: it is its four fields, a row selects by fields, an encoded word has the fields it was
given (R71, R73). -/

namespace Sys2Proof

theorem append_parts {n m : Nat} {a a' : BitVec n} {b b' : BitVec m} (h : a ++ b = a' ++ b') : a = a' ∧ b = b' := by
  have hr := congrArg (BitVec.extractLsb' 0 m) h
  have hl := congrArg (BitVec.extractLsb' m n) h
  simp only [BitVec.extractLsb'_append_eq_right, BitVec.extractLsb'_append_eq_left] at hr hl
  exact ⟨hl, hr⟩

/-- A word is its four fields, from the top (R71). -/
theorem word_eq_fields (w : CmdWord) : w = fieldOp w ++ (fieldRsvd w ++ (fieldA w ++ fieldB w)) := by
  unfold fieldOp fieldRsvd fieldA fieldB
  rw [BitVec.extractLsb'_append_extractLsb'_eq_extractLsb' (by rfl),
    BitVec.extractLsb'_append_extractLsb'_eq_extractLsb' (by rfl),
    BitVec.extractLsb'_append_extractLsb'_eq_extractLsb' (by rfl)]
  exact BitVec.extractLsb'_eq_self.symm

theorem word_ext {w w' : CmdWord} (ho : fieldOp w = fieldOp w') (hr : fieldRsvd w = fieldRsvd w')
    (ha : fieldA w = fieldA w') (hb : fieldB w = fieldB w') : w = w' := by
  rw [word_eq_fields w, word_eq_fields w', ho, hr, ha, hb]

/-- The fields of a word written out as its four fields. -/
theorem fields_of_append (op : BitVec 4) (r : BitVec 12) (a b : Byte) :
    fieldOp (op ++ (r ++ (a ++ b))) = op ∧ fieldRsvd (op ++ (r ++ (a ++ b))) = r ∧
    fieldA (op ++ (r ++ (a ++ b))) = a ∧ fieldB (op ++ (r ++ (a ++ b))) = b := by
  have h := word_eq_fields (op ++ (r ++ (a ++ b)))
  obtain ⟨h1, h⟩ := append_parts (n := 4) (m := 28) h
  obtain ⟨h2, h⟩ := append_parts (n := 12) (m := 16) h
  obtain ⟨h3, h4⟩ := append_parts (n := 8) (m := 8) h
  exact ⟨h1.symm, h2.symm, h3.symm, h4.symm⟩

/-- A row selects a word field by field. -/
theorem selects_fields (w : CmdWord) (po mo : BitVec 4) (pr mr : BitVec 12) (pa ma pb mb : Byte) :
    (Row.mk (po ++ (pr ++ (pa ++ pb))) (mo ++ (mr ++ (ma ++ mb)))).selects w = true ↔
      fieldOp w &&& mo = po ∧ fieldRsvd w &&& mr = pr ∧ fieldA w &&& ma = pa ∧ fieldB w &&& mb = pb := by
  have hw : w &&& (mo ++ (mr ++ (ma ++ mb))) =
      (fieldOp w &&& mo) ++ ((fieldRsvd w &&& mr) ++ ((fieldA w &&& ma) ++ (fieldB w &&& mb))) := by
    conv_lhs => rw [word_eq_fields w]
    rw [BitVec.and_append, BitVec.and_append, BitVec.and_append]
  simp only [Row.selects, beq_iff_eq, hw]
  constructor
  · intro h
    obtain ⟨h1, h⟩ := append_parts h
    obtain ⟨h2, h⟩ := append_parts h
    obtain ⟨h3, h4⟩ := append_parts h
    exact ⟨h1, h2, h3, h4⟩
  · rintro ⟨rfl, rfl, rfl, rfl⟩; rfl

theorem and_ones4 (x : BitVec 4) : x &&& 0xF#4 = x := BitVec.and_allOnes
theorem and_ones12 (x : BitVec 12) : x &&& 0xFFF#12 = x := BitVec.and_allOnes
theorem and_ones8 (x : BitVec 8) : x &&& 0xFF#8 = x := BitVec.and_allOnes
theorem and_top8 : ∀ x : BitVec 8, x &&& 0x80#8 = 0#8 ↔ x.toNat < 128 := by decide

/-- When a word selects each row, in terms of its fields (R73). -/
theorem rowInit_selects (w : CmdWord) :
    rowInit.selects w = true ↔ fieldOp w = 1#4 ∧ fieldRsvd w = 0#12 ∧ fieldA w = 0#8 := by
  have h := selects_fields w 0x1#4 0xF#4 0#12 0xFFF#12 0#8 0xFF#8 0#8 0#8
  simpa [rowInit, and_ones4, and_ones12, and_ones8] using h

theorem rowSetChannel_selects (w : CmdWord) :
    rowSetChannel.selects w = true ↔ fieldOp w = 2#4 ∧ fieldRsvd w = 0#12 := by
  have h := selects_fields w 0x2#4 0xF#4 0#12 0xFFF#12 0#8 0#8 0#8 0#8
  simpa [rowSetChannel, and_ones4, and_ones12] using h

theorem rowSetChannels_selects (w : CmdWord) :
    rowSetChannels.selects w = true ↔ fieldOp w = 3#4 ∧ fieldRsvd w = 0#12 ∧ fieldB w = 0#8 := by
  have h := selects_fields w 0x3#4 0xF#4 0#12 0xFFF#12 0#8 0#8 0#8 0xFF#8
  simpa [rowSetChannels, and_ones4, and_ones12, and_ones8] using h

theorem rowEntry_selects (w : CmdWord) :
    rowEntry.selects w = true ↔ fieldOp w = 4#4 ∧ fieldRsvd w = 0#12 := by
  have h := selects_fields w 0x4#4 0xF#4 0#12 0xFFF#12 0#8 0#8 0#8 0#8
  simpa [rowEntry, and_ones4, and_ones12] using h

theorem rowQPwmReg_selects (w : CmdWord) :
    rowQPwmReg.selects w = true ↔ fieldOp w = 8#4 ∧ fieldRsvd w = 0#12 ∧ fieldB w = 0#8 := by
  have h := selects_fields w 0x8#4 0xF#4 0#12 0xFFF#12 0#8 0#8 0#8 0xFF#8
  simpa [rowQPwmReg, and_ones4, and_ones12, and_ones8] using h

theorem rowQGainReg_selects (w : CmdWord) :
    rowQGainReg.selects w = true ↔ fieldOp w = 9#4 ∧ fieldRsvd w = 0#12 ∧ fieldB w = 0#8 := by
  have h := selects_fields w 0x9#4 0xF#4 0#12 0xFFF#12 0#8 0#8 0#8 0xFF#8
  simpa [rowQGainReg, and_ones4, and_ones12, and_ones8] using h

theorem rowQWithAi_selects (w : CmdWord) :
    rowQWithAi.selects w = true ↔ fieldOp w = 0xA#4 ∧ fieldRsvd w = 0#12 ∧ (fieldA w).toNat < 128 ∧ fieldB w = 0#8 := by
  have h := selects_fields w 0xA#4 0xF#4 0#12 0xFFF#12 0#8 0x80#8 0#8 0xFF#8
  simpa [rowQWithAi, and_ones4, and_ones12, and_ones8, and_top8] using h

theorem rowQGainCode_selects (w : CmdWord) :
    rowQGainCode.selects w = true ↔ fieldOp w = 0xB#4 ∧ fieldRsvd w = 0#12 ∧ fieldA w = 0#8 := by
  have h := selects_fields w 0xB#4 0xF#4 0#12 0xFFF#12 0#8 0xFF#8 0#8 0#8
  simpa [rowQGainCode, and_ones4, and_ones12, and_ones8] using h

/-- An encoded word has the fields it was given, and its reserved bits are 0 (R71). -/
@[simp] theorem fieldOp_wordOf (op : BitVec 4) (a b : Byte) : fieldOp (wordOf op a b) = op := by
  ext i hi; interval_cases i <;> simp [fieldOp, wordOf]

@[simp] theorem fieldRsvd_wordOf (op : BitVec 4) (a b : Byte) : fieldRsvd (wordOf op a b) = 0#12 := by
  ext i hi; interval_cases i <;> simp [fieldRsvd, wordOf]

@[simp] theorem fieldA_wordOf (op : BitVec 4) (a b : Byte) : fieldA (wordOf op a b) = a := by
  ext i hi; interval_cases i <;> simp [fieldA, wordOf]

@[simp] theorem fieldB_wordOf (op : BitVec 4) (a b : Byte) : fieldB (wordOf op a b) = b := by
  ext i hi; interval_cases i <;> simp [fieldB, wordOf]

theorem wordOf_eq_append (op : BitVec 4) (a b : Byte) : wordOf op a b = op ++ (0#12 ++ (a ++ b)) := by
  obtain ⟨h1, h2, h3, h4⟩ := fields_of_append op 0#12 a b
  exact word_ext ((fieldOp_wordOf op a b).trans h1.symm) ((fieldRsvd_wordOf op a b).trans h2.symm)
    ((fieldA_wordOf op a b).trans h3.symm) ((fieldB_wordOf op a b).trans h4.symm)

end Sys2Proof
end

