-- ==== Sys2Proof/Laws/State.lean ====
section
/-! SUPPORT. One lemma per field for each named update of State, so that no later proof unfolds a record update. -/

namespace Sys2Proof.Machine

variable (s : State)

@[simp] theorem record_busAddr (e : Event) : (s.record e).busAddr = s.busAddr := rfl
@[simp] theorem record_mode (e : Event) : (s.record e).mode = s.mode := rfl
@[simp] theorem record_xphase (e : Event) : (s.record e).xphase = s.xphase := rfl
@[simp] theorem record_xact (e : Event) : (s.record e).xact = s.xact := rfl
@[simp] theorem record_batchRem (e : Event) : (s.record e).batchRem = s.batchRem := rfl
@[simp] theorem record_batchIdx (e : Event) : (s.record e).batchIdx = s.batchIdx := rfl
@[simp] theorem record_batchFail (e : Event) : (s.record e).batchFail = s.batchFail := rfl
@[simp] theorem record_result (e : Event) : (s.record e).result = s.result := rfl
@[simp] theorem record_port (e : Event) : (s.record e).port = s.port := rfl
@[simp] theorem record_answers (e : Event) : (s.record e).answers = s.answers := rfl
@[simp] theorem record_log (e : Event) : (s.record e).log = s.log ++ [e] := rfl

@[simp] theorem complete_busAddr (f : ResultFields) : (s.complete f).busAddr = s.busAddr := rfl
@[simp] theorem complete_mode (f : ResultFields) : (s.complete f).mode = .idle := rfl
@[simp] theorem complete_xphase (f : ResultFields) : (s.complete f).xphase = s.xphase := rfl
@[simp] theorem complete_xact (f : ResultFields) : (s.complete f).xact = s.xact := rfl
@[simp] theorem complete_batchRem (f : ResultFields) : (s.complete f).batchRem = s.batchRem := rfl
@[simp] theorem complete_batchIdx (f : ResultFields) : (s.complete f).batchIdx = s.batchIdx := rfl
@[simp] theorem complete_batchFail (f : ResultFields) : (s.complete f).batchFail = s.batchFail := rfl
@[simp] theorem complete_result (f : ResultFields) : (s.complete f).result = f.pack := rfl
@[simp] theorem complete_port (f : ResultFields) : (s.complete f).port = s.port := rfl
@[simp] theorem complete_answers (f : ResultFields) : (s.complete f).answers = s.answers := rfl
@[simp] theorem complete_log (f : ResultFields) : (s.complete f).log = s.log ++ [.result f.pack] := rfl

@[simp] theorem openXact_busAddr (x : Xact) : (s.openXact x).busAddr = s.busAddr := rfl
@[simp] theorem openXact_mode (x : Xact) : (s.openXact x).mode = .exec := rfl
@[simp] theorem openXact_xphase (x : Xact) : (s.openXact x).xphase = some .callBegin := rfl
@[simp] theorem openXact_xact (x : Xact) : (s.openXact x).xact = some x := rfl
@[simp] theorem openXact_batchRem (x : Xact) : (s.openXact x).batchRem = s.batchRem := rfl
@[simp] theorem openXact_batchIdx (x : Xact) : (s.openXact x).batchIdx = s.batchIdx := rfl
@[simp] theorem openXact_batchFail (x : Xact) : (s.openXact x).batchFail = s.batchFail := rfl
@[simp] theorem openXact_result (x : Xact) : (s.openXact x).result = s.result := rfl
@[simp] theorem openXact_port (x : Xact) : (s.openXact x).port = s.port := rfl
@[simp] theorem openXact_answers (x : Xact) : (s.openXact x).answers = s.answers := rfl
@[simp] theorem openXact_log (x : Xact) : (s.openXact x).log = s.log := rfl

@[simp] theorem latch_busAddr (c : Cause) (p : Option Phase) (a : RegAddr) : (s.latch c p a).busAddr = s.busAddr := rfl
@[simp] theorem latch_mode (c : Cause) (p : Option Phase) (a : RegAddr) : (s.latch c p a).mode = s.mode := rfl
@[simp] theorem latch_xphase (c : Cause) (p : Option Phase) (a : RegAddr) : (s.latch c p a).xphase = s.xphase := rfl
@[simp] theorem latch_xact (c : Cause) (p : Option Phase) (a : RegAddr) : (s.latch c p a).xact = s.xact := rfl
@[simp] theorem latch_batchRem (c : Cause) (p : Option Phase) (a : RegAddr) : (s.latch c p a).batchRem = s.batchRem := rfl
@[simp] theorem latch_batchIdx (c : Cause) (p : Option Phase) (a : RegAddr) : (s.latch c p a).batchIdx = s.batchIdx := rfl
@[simp] theorem latch_batchFail (c : Cause) (p : Option Phase) (a : RegAddr) :
    (s.latch c p a).batchFail = some ⟨s.batchIdx, c, p, a⟩ := rfl
@[simp] theorem latch_result (c : Cause) (p : Option Phase) (a : RegAddr) : (s.latch c p a).result = s.result := rfl
@[simp] theorem latch_port (c : Cause) (p : Option Phase) (a : RegAddr) : (s.latch c p a).port = s.port := rfl
@[simp] theorem latch_answers (c : Cause) (p : Option Phase) (a : RegAddr) : (s.latch c p a).answers = s.answers := rfl
@[simp] theorem latch_log (c : Cause) (p : Option Phase) (a : RegAddr) : (s.latch c p a).log = s.log := rfl

end Sys2Proof.Machine
end

