-- ==== Sys2Proof/Laws/Memory.lean ====
section
/-! SUPPORT. Laws of memory and of the image: read after write, every other address alone, and every operation keeps the
canonical form (R55, R56; log 6). -/

namespace Sys2Proof.Machine

theorem Memory.read_insert_same (m : Memory) (a : Nat) (b : Byte) : (m.insert a b).read a = some b := by
  induction m with
  | nil => simp [insert, read]
  | cons c m ih =>
    obtain ⟨k, v⟩ := c
    unfold insert
    split
    · simp [read]
    · split
      · simp [read]
      · have : k ≠ a := by omega
        simp [read, this, ih]

theorem Memory.read_insert_other (m : Memory) {a x : Nat} (b : Byte) (h : x ≠ a) : (m.insert a b).read x = m.read x := by
  induction m with
  | nil => simp [insert, read, h.symm]
  | cons c m ih =>
    obtain ⟨k, v⟩ := c
    unfold insert
    split
    · simp [read, h.symm]
    · split
      · subst_vars; simp [read, h.symm]
      · simp [read, ih]

theorem Memory.read_write_same (m : Memory) {a : Nat} (b : Byte) (h : a < 128) : (m.write a b).read a = some b := by
  simp [write, Config.regSpaceSize, h, read_insert_same]

theorem Memory.read_write_other (m : Memory) {a x : Nat} (b : Byte) (h : x ≠ a) : (m.write a b).read x = m.read x := by
  unfold write; split
  · exact read_insert_other m b h
  · rfl

theorem Memory.read_forget_same (m : Memory) (a : Nat) : (m.forget a).read a = none := by
  induction m with
  | nil => rfl
  | cons c m ih =>
    obtain ⟨k, v⟩ := c
    by_cases h : k = a
    · subst h; simpa [forget] using ih
    · simpa [forget, h, read] using ih

theorem Memory.read_forget_other (m : Memory) {a x : Nat} (h : x ≠ a) : (m.forget a).read x = m.read x := by
  induction m with
  | nil => rfl
  | cons c m ih =>
    obtain ⟨k, v⟩ := c
    simp only [forget] at ih
    by_cases hk : k = a
    · subst hk; simpa [forget, read, h.symm] using ih
    · simp [forget, hk, read, ih]

theorem Memory.read_forgetFrom (m : Memory) (a x n : Nat) :
    (m.forgetFrom a n).read x = if a ≤ x ∧ x < a + n then none else m.read x := by
  induction n generalizing m a with
  | zero => simp [forgetFrom]
  | succ n ih =>
    rw [forgetFrom, ih]
    by_cases h : x = a
    · subst h; simp [read_forget_same]
    · rw [read_forget_other m h]
      congr 1
      simp only [eq_iff_iff]; omega

theorem Memory.risingFrom_mono {lo lo' : Nat} (h : lo ≤ lo') : ∀ {m : Memory}, m.risingFrom lo' = true → m.risingFrom lo = true
  | [], _ => rfl
  | (k, v) :: m, hm => by
    simp only [risingFrom, Bool.and_eq_true, decide_eq_true_eq] at hm ⊢
    exact ⟨⟨by omega, hm.1.2⟩, hm.2⟩

theorem Memory.risingFrom_insert {lo a : Nat} (b : Byte) (hlo : lo ≤ a) (ha : a < 128) :
    ∀ {m : Memory}, m.risingFrom lo = true → (m.insert a b).risingFrom lo = true := by
  intro m
  induction m generalizing lo with
  | nil => simp [insert, risingFrom, Config.regSpaceSize, hlo, ha]
  | cons c m ih =>
    obtain ⟨k, v⟩ := c
    intro hm
    simp only [risingFrom, Bool.and_eq_true, decide_eq_true_eq] at hm
    unfold insert
    split
    · simp only [risingFrom, Bool.and_eq_true, decide_eq_true_eq]
      exact ⟨⟨hlo, ha⟩, ⟨by omega, hm.1.2⟩, hm.2⟩
    · split
      · subst_vars
        simp only [risingFrom, Bool.and_eq_true, decide_eq_true_eq]
        exact ⟨⟨hlo, ha⟩, hm.2⟩
      · simp only [risingFrom, Bool.and_eq_true, decide_eq_true_eq]
        exact ⟨hm.1, ih (by omega) hm.2⟩

theorem Memory.risingFrom_forget (a : Nat) {lo : Nat} :
    ∀ {m : Memory}, m.risingFrom lo = true → (m.forget a).risingFrom lo = true := by
  intro m
  induction m generalizing lo with
  | nil => simp [forget]
  | cons c m ih =>
    obtain ⟨k, v⟩ := c
    intro hm
    simp only [risingFrom, Bool.and_eq_true, decide_eq_true_eq] at hm
    have := ih hm.2
    simp only [forget] at this
    by_cases hk : k = a
    · simpa [forget, hk] using risingFrom_mono (by omega) this
    · simp [forget, hk, risingFrom, hm.1.1, hm.1.2, this]

/-- Every memory operation keeps the canonical form. -/
theorem Memory.wf_write {m : Memory} (h : m.wf = true) (a : Nat) (b : Byte) : (m.write a b).wf = true := by
  unfold write; split
  · exact risingFrom_insert b (Nat.zero_le a) ‹_› h
  · exact h

theorem Memory.wf_forget {m : Memory} (h : m.wf = true) (a : Nat) : (m.forget a).wf = true := risingFrom_forget a h

theorem Memory.wf_forgetFrom {m : Memory} (h : m.wf = true) (a n : Nat) : (m.forgetFrom a n).wf = true := by
  induction n generalizing m a with
  | zero => exact h
  | succ n ih => exact ih (wf_forget h a) (a + 1)

theorem Memory.wf_blockTail {m : Memory} (h : m.wf = true) (x : Nat) (p : List Byte) : (m.blockTail x p).wf = true := by
  induction p generalizing m x with
  | nil => exact h
  | cons b bs ih =>
    unfold blockTail
    split
    · exact ih (wf_write h x b) (x + 1)
    · exact ih (wf_forget h x) (x + 1)

theorem Memory.wf_commit {m : Memory} (h : m.wf = true) (addr : Byte) (p : List Byte) : (m.commit addr p).wf = true := by
  unfold commit; split
  · rfl
  · exact wf_write h _ _
  · rfl
  · exact wf_blockTail (wf_write h _ _) _ _

theorem Memory.wf_spoil {m : Memory} (h : m.wf = true) (addr : Byte) (p : List Byte) : (m.spoil addr p).wf = true := by
  unfold spoil; split
  · rfl
  · exact wf_forget h _
  · rfl
  · exact wf_forgetFrom h _ _

theorem Memory.wf_observe {m : Memory} (h : m.wf = true) (e : Event) : (m.observe e).wf = true := by
  unfold observe; split
  · exact h
  · exact h
  · rfl
  · rfl
  · exact wf_commit h _ _
  · exact wf_spoil h _ _

theorem imageOf_append (l : List Event) (es : List Event) : imageOf (l ++ es) = es.foldl Memory.observe (imageOf l) := by
  simp [imageOf, List.foldl_append]

@[simp] theorem observe_call (m : Memory) (c : Call) (r : Option Answer) : m.observe (.call c r) = m := rfl
@[simp] theorem observe_result (m : Memory) (v : BitVec 32) : m.observe (.result v) = m := rfl
@[simp] theorem observe_reset (m : Memory) : m.observe .reset = [] := rfl
@[simp] theorem observe_ok (m : Memory) (b : Byte) (p : List Byte) : m.observe (.xact (b :: p) .ok) = m.commit b p := rfl
@[simp] theorem observe_fail (m : Memory) (b : Byte) (p : List Byte) (f : Phase) :
    m.observe (.xact (b :: p) (.fail f)) = m.spoil b p := rfl

/-- When the auto-increment scope covers an address (R55). -/
theorem Memory.scopeCovers_iff (m : Memory) (x : Nat) :
    m.scopeCovers x = true ↔ x ≤ 0x39 ∧ m.read 0 = some Config.mode1AiAll := by
  simp only [scopeCovers, Bool.and_eq_true, decide_eq_true_eq]; rfl

/-- No address outside the register space is known (R40). -/
theorem Memory.read_outside {m : Memory} (h : m.wf = true) {x : Nat} (hx : 128 ≤ x) : m.read x = none := by
  unfold Memory.wf at h
  generalize 0 = lo at h
  induction m generalizing lo with
  | nil => rfl
  | cons c m ih =>
    obtain ⟨k, v⟩ := c
    simp only [risingFrom, Bool.and_eq_true, decide_eq_true_eq] at h
    have hk : k < 128 := h.1.2
    have : k ≠ x := by omega
    simp only [read, if_neg this]
    exact ih _ h.2

/-- What a block write does after its first register, which is not MODE1's (R55). -/
theorem Memory.read_blockTail (vs : List Byte) (m : Memory) {y : Nat} (x : Nat) (hy : 0 < y) :
    (m.blockTail y vs).read x =
      if y ≤ x ∧ x < y + vs.length then
        if x ≤ 0x39 ∧ m.read 0 = some Config.mode1AiAll then vs[x - y]? else none
      else m.read x := by
  induction vs generalizing m y with
  | nil => simp only [blockTail, List.length_nil]; rw [if_neg (by omega)]
  | cons b bs ih =>
    have hlen : (b :: bs).length = bs.length + 1 := rfl
    have key : ∀ m' : Memory, m'.read 0 = m.read 0 → (∀ z, z ≠ y → m'.read z = m.read z) →
        (m'.read y = if y ≤ 0x39 ∧ m.read 0 = some Config.mode1AiAll then some b else none) →
        (m'.blockTail (y + 1) bs).read x =
          if y ≤ x ∧ x < y + (b :: bs).length then
            if x ≤ 0x39 ∧ m.read 0 = some Config.mode1AiAll then (b :: bs)[x - y]? else none
          else m.read x := by
      intro m' h0 ho hs
      rw [ih m' (Nat.succ_pos y), h0, hlen]
      by_cases hx : x = y
      · subst hx
        rw [if_neg (show ¬ (x + 1 ≤ x ∧ x < x + 1 + bs.length) by omega),
          if_pos (show x ≤ x ∧ x < x + (bs.length + 1) by omega), hs, Nat.sub_self]
        rfl
      · rw [ho x hx]
        by_cases h1 : y + 1 ≤ x ∧ x < y + 1 + bs.length
        · have e : x - y = (x - (y + 1)) + 1 := by omega
          rw [if_pos h1, if_pos (show y ≤ x ∧ x < y + (bs.length + 1) by omega), e, List.getElem?_cons_succ]
        · rw [if_neg h1, if_neg (show ¬ (y ≤ x ∧ x < y + (bs.length + 1)) by omega)]
    unfold blockTail
    split
    · rename_i hc
      have hc' := (scopeCovers_iff m y).mp hc
      refine key _ (read_write_other m b (by omega)) (fun z hz => read_write_other m b hz) ?_
      rw [read_write_same m b (by omega), if_pos hc']
    · rename_i hc
      refine key _ (read_forget_other m (by omega)) (fun z hz => read_forget_other m hz) ?_
      rw [read_forget_same, if_neg (fun h => hc ((scopeCovers_iff m y).mpr h))]

/-- The image of a state right after reset lists nothing: every address is Unknown, and the canonical form holds. -/
theorem reset_image : State.reset.image = [] ∧ State.reset.image.wf = true := ⟨rfl, rfl⟩

end Sys2Proof.Machine
end

