-- ==== Sys2Proof/Laws/Transport.lean ====
section
/-! SUPPORT. Laws of the bus transaction: what a response does, what a whole transaction does, and that it makes no
difference when a response arrives (R47, R51, R57, R217). -/

namespace Sys2Proof.Machine

@[simp] theorem outstanding_openXact (s : State) (x : Xact) : (s.openXact x).outstanding = some (x, .callBegin) := rfl

theorem outstanding_eq_some {s : State} {x : Xact} {p : Phase} :
    s.outstanding = some (x, p) ↔ s.mode = .exec ∧ s.xphase = some p ∧ s.xact = some x := by
  unfold State.outstanding
  split <;> simp_all
  constructor <;> (rintro ⟨rfl, rfl⟩; exact ⟨rfl, rfl⟩)

theorem outstanding_none_of_mode {s : State} (h : s.mode ≠ .exec) : s.outstanding = none := by
  unfold State.outstanding
  split
  · exact absurd ‹_› h
  · rfl

@[simp] theorem drainWith_nil (s : State) : s.drainWith [] = { s with answers := [] } := rfl

theorem drainWith_outstanding {s : State} {x : Xact} {p : Phase} (h : s.outstanding = some (x, p)) (r : Answer)
    (rs : List Answer) : s.drainWith (r :: rs) = (s.onAnswer x p r).drainWith rs := by
  simp [State.drainWith, h]

theorem drainWith_settled {s : State} (h : s.outstanding = none) (l : List Answer) :
    s.drainWith l = { s with answers := l } := by
  cases l with
  | nil => rfl
  | cons r rs => simp [State.drainWith, h]

/-- A property that no response and no change of the response list breaks holds after a drain. -/
theorem drainWith_keeps {P : State → Prop} (hans : ∀ s l, P s → P { s with answers := l })
    (hstep : ∀ s x p r, P s → s.outstanding = some (x, p) → P (s.onAnswer x p r)) (l : List Answer) {s : State}
    (h : P s) : P (s.drainWith l) := by
  induction l generalizing s with
  | nil => exact hans s [] h
  | cons r rs ih =>
    unfold State.drainWith
    split
    · exact ih (hstep _ _ _ _ h ‹_›)
    · exact hans _ _ h

/-- The last entry slot completes the batch (R146, R147). -/
theorem endEntry_last {s : State} (h : s.batchRem = 1#8) :
    s.endEntry = { s with result := batchResult s.batchFail, mode := .idle, batchRem := 0, batchIdx := 0,
                          batchFail := none, log := s.log ++ [.result (batchResult s.batchFail)] } := by
  have h' : s.batchRem - 1 = 0 := by rw [h]; rfl
  cases hf : s.batchFail <;>
    simp only [State.endEntry, State.completeBatch, State.succeed, State.raise, State.complete, if_true, hf, h',
      batchResult, errorFields, statusCode, statusOk]

/-- An entry slot that is not the last waits for the next entry word (R146). -/
theorem endEntry_more {s : State} (h : s.batchRem ≠ 1#8) :
    s.endEntry = { s with batchIdx := s.batchIdx + 1, batchRem := s.batchRem - 1, mode := .batch } := by
  have h' : ¬ (s.batchRem - 1 = 0) := fun e => h (by simpa using (sub_eq_zero.mp e))
  simp only [State.endEntry, if_neg h']

/-- An entry slot ends as R146 and R147 say. -/
theorem endEntry_eq (s : State) : s.endEntry = s.slotEnded s.batchFail := by
  unfold State.slotEnded
  split
  · rw [endEntry_last ‹_›]; rfl
  · rw [endEntry_more ‹_›]

theorem endEntry_answers (s : State) (l : List Answer) :
    State.endEntry { s with answers := l } = { s.endEntry with answers := l } := by
  by_cases h : s.batchRem = 1#8
  · rw [endEntry_last h, endEntry_last (s := { s with answers := l }) h]
  · rw [endEntry_more h, endEntry_more (s := { s with answers := l }) h]

theorem afterFail_answers (s : State) (a : RegAddr) (p : Phase) (c : Caller) (l : List Answer) :
    State.afterFail { s with answers := l } a p c = { s.afterFail a p c with answers := l } := by
  cases c
  case entry => exact endEntry_answers (s.latch .busTransactionFailed (some p) a) l
  all_goals rfl

theorem afterOk_answers (s : State) (c : Caller) (l : List Answer) :
    State.afterOk { s with answers := l } c = { s.afterOk c with answers := l } := by
  cases c
  case entry => exact endEntry_answers s l
  all_goals rfl

theorem closeXact_answers (s : State) (x : Xact) (r : XactResult) (l : List Answer) :
    State.closeXact { s with answers := l } x r = { s.closeXact x r with answers := l } := by
  cases r
  · exact afterOk_answers { s with xphase := none, xact := none, log := s.log ++ [.xact x.bytes .ok] } x.caller l
  · rename_i p
    exact afterFail_answers { s with xphase := none, xact := none, log := s.log ++ [.xact x.bytes (.fail p)] }
      x.regaddr p x.caller l

theorem onAnswer_answers (s : State) (x : Xact) (p : Phase) (r : Answer) (l : List Answer) :
    State.onAnswer { s with answers := l } x p r = { s.onAnswer x p r with answers := l } := by
  cases r <;> cases p <;> first | rfl | exact closeXact_answers (s.record _) x _ l

/-- The response list a state holds does not matter to a drain with a given list. -/
theorem drainWith_answers (s : State) (z l : List Answer) :
    State.drainWith { s with answers := z } l = s.drainWith l := by
  induction l generalizing s with
  | nil => rfl
  | cons r rs ih =>
    have h : State.outstanding { s with answers := z } = s.outstanding := rfl
    cases ho : s.outstanding with
    | none => rw [drainWith_settled (h.trans ho), drainWith_settled ho]
    | some xp =>
      rw [drainWith_outstanding (h.trans ho), drainWith_outstanding ho, onAnswer_answers, ih]

/-- Responses may come in two parts: what is left over of the first part stays before the second. -/
theorem drainWith_append (s : State) (l₁ l₂ : List Answer) :
    s.drainWith (l₁ ++ l₂) = (s.drainWith l₁).drainWith ((s.drainWith l₁).answers ++ l₂) := by
  induction l₁ generalizing s with
  | nil => simp [drainWith_answers]
  | cons r rs ih =>
    cases ho : s.outstanding with
    | none =>
      have h : State.outstanding { s with answers := r :: rs } = none := ho
      rw [List.cons_append, drainWith_settled ho, drainWith_settled ho, drainWith_settled h]
      rfl
    | some xp =>
      rw [List.cons_append, drainWith_outstanding ho, drainWith_outstanding ho, ih]

/-- A whole transaction (R47): its calls in order, no call after a failure, and then its caller goes on. -/
theorem drainWith_transaction (s : State) (x : Xact) (r : XactResult) (rest : List Answer) :
    (s.openXact x).drainWith (drawsFor r ++ rest) =
      (State.callerGoesOn
        { s with mode := .exec, xphase := none, xact := none,
                 log := s.log ++ transactionEvents s.busAddr x.bytes r } x r).drainWith rest := by
  cases r with
  | ok =>
    simp [drawsFor, transactionEvents, State.drainWith, State.outstanding, State.openXact, State.onAnswer,
      State.record, State.closeXact, Xact.callAt]
  | fail p =>
    cases p <;>
      simp [drawsFor, transactionEvents, State.drainWith, State.outstanding, State.openXact, State.onAnswer,
        State.record, State.closeXact, Xact.callAt]

/-- A drain that ends with no call outstanding keeps the responses not drawn; one that waits has used them all. -/
theorem drainWith_waiting (s : State) (l : List Answer) :
    (s.drainWith l).outstanding = none ∨ (s.drainWith l).answers = [] := by
  induction l generalizing s with
  | nil => exact .inr rfl
  | cons r rs ih =>
    cases ho : s.outstanding with
    | none => exact .inl (by rw [drainWith_settled ho]; exact ho)
    | some xp => rw [drainWith_outstanding ho]; exact ih _

end Sys2Proof.Machine
end

