-- ==== Sys2Proof/Laws/Ops.lean ====
section
/-! SUPPORT. One lemma per shared operation that says once what it does, and what one step can do at all. -/

namespace Sys2Proof.Machine

/-! ### Ending a command -/

theorem raise_eq (s : State) (e : ErrorKind) : s.raise e = s.reported (errorFields e).pack := rfl

theorem succeed_eq (s : State) (v : Byte) : s.succeed v = s.reported (ResultFields.pack { status := 0, value := v }) := rfl

/-- A header consumed in each mode (R31, R80). -/
theorem consumeHeader_idle {s : State} (h : s.mode = .idle) (run : State → State) : s.consumeHeader run = run s := by
  simp only [State.consumeHeader, h]

theorem consumeHeader_batch {s : State} (h : s.mode = .batch) (run : State → State) :
    s.consumeHeader run = s.entrySlot none := by simp only [State.consumeHeader, h]

theorem consumeHeader_exec {s : State} (h : s.mode = .exec) (run : State → State) : s.consumeHeader run = s := by
  simp only [State.consumeHeader, h]

theorem channelOf_of_lt {a : Byte} (h : a.toNat < 24) : channelOf a = some ⟨a.toNat, h⟩ := dif_pos h

theorem channelOf_of_ge {a : Byte} (h : 24 ≤ a.toNat) : channelOf a = none := dif_neg (by omega)

theorem channelOf_ofNat (ch : Channel) : channelOf (BitVec.ofNat 8 ch.val) = some ch := by
  have h : (BitVec.ofNat 8 ch.val).toNat = ch.val := by simp; omega
  rw [channelOf_of_lt (by omega)]
  exact congrArg some (Fin.ext h)

/-- The address byte of a level write is `0x0A + ch`, and its register `0x0A + ch` (R101, R140). -/
theorem levelWrite_of_channelOf {a : Byte} {ch : Channel} (h : channelOf a = some ch) (v : Byte) (c : Caller) :
    levelWrite ch v c = ⟨0x0A#8 + a, [v], c⟩ ∧ (levelWrite ch v c).regaddr = 0x0A#7 + a.setWidth 7 := by
  unfold channelOf at h
  split at h
  · cases h
    have key : singleRegister (pwmRegister ⟨a.toNat, ‹_›⟩) = 0x0A#8 + a := by
      apply BitVec.eq_of_toNat_eq
      simp [singleRegister, pwmRegister, Config.pwmBase]; omega
    refine ⟨by simp [levelWrite, key], ?_⟩
    simp only [Xact.regaddr, levelWrite, key, addrByteReg]
    apply BitVec.eq_of_toNat_eq
    simp
  · cases h

/-- The bytes and the registers of INIT's two transactions (R132, R133, R134). -/
theorem modeWrite_eq (g : Byte) : modeWrite g = ⟨0x80#8, [Config.mode1AiAll], .initMode g⟩ := by
  have h : withAutoincrement Config.mode1Addr = 0x80#8 := by decide
  simp [modeWrite, h]

theorem gainWrite_eq (g : Byte) : gainWrite g = ⟨0xA2#8, List.replicate 24 g, .initGain⟩ := by
  have h : withAutoincrement (gainRegister 0) = 0xA2#8 := by decide
  simp [gainWrite, h, Config.channelCount]

theorem modeWrite_regaddr (g : Byte) : (modeWrite g).regaddr = 0x00#7 := by
  have h : addrByteReg 0x80#8 = 0x00#7 := by decide
  rw [modeWrite_eq]; exact h

theorem gainWrite_regaddr (g : Byte) : (gainWrite g).regaddr = 0x22#7 := by
  have h : addrByteReg 0xA2#8 = 0x22#7 := by decide
  rw [gainWrite_eq]; exact h

/-! ### A command with one transaction -/

theorem drainWith_reported (s : State) (v : BitVec 32) (l : List Answer) :
    (s.reported v).drainWith l = { s.reported v with answers := l } :=
  drainWith_settled (outstanding_none_of_mode (by simp [State.reported])) l

theorem slotEnded_mode_ne_exec (s : State) (f : Option BatchFail) : (s.slotEnded f).mode ≠ .exec := by
  unfold State.slotEnded; split <;> simp [State.reported]

/-- `BusXact` from its first call to what its caller makes of the result (R47). -/
theorem busXact_eq {s : State} {x : Xact} {r : XactResult} {rest : List Answer} (h : s.answers = drawsFor r ++ rest) :
    s.busXact x =
      (State.callerGoesOn
        { s with mode := .exec, xphase := none, xact := none,
                 log := s.log ++ transactionEvents s.busAddr x.bytes r } x r).drainWith rest := by
  have key := drainWith_transaction s x r rest
  rw [← h] at key
  exact key

theorem drainWith_slotEnded (s : State) (f : Option BatchFail) (l : List Answer) :
    (s.slotEnded f).drainWith l = { s.slotEnded f with answers := l } :=
  drainWith_settled (outstanding_none_of_mode (slotEnded_mode_ne_exec s f)) l

theorem slotEnded_answers (s : State) (f : Option BatchFail) (l : List Answer) :
    State.slotEnded { s with answers := l } f = { s.slotEnded f with answers := l } := by
  unfold State.slotEnded; simp only; split <;> rfl

theorem latch_endEntry (s : State) (c : Cause) (p : Option Phase) (a : RegAddr) :
    (s.latch c p a).endEntry = s.slotEnded (some ⟨s.batchIdx, c, p, a⟩) := by
  rw [endEntry_eq]; rfl

/-- The four ways of an entry slot (R146, R148). -/
theorem entrySlot_discard {s : State} {f : BatchFail} (h : s.batchFail = some f) (e : Option (Byte × Byte)) :
    s.entrySlot e = s.endEntry := by simp only [State.entrySlot, h]

theorem entrySlot_notEntry {s : State} (h : s.batchFail = none) :
    s.entrySlot none = (s.latch .illegalCommand none 0).endEntry := by simp only [State.entrySlot, h]

theorem entrySlot_badChannel {s : State} {a : Byte} (h : s.batchFail = none) (hc : channelOf a = none) (v : Byte) :
    s.entrySlot (some (a, v)) = (s.latch .invalidChannel none 0).endEntry := by simp only [State.entrySlot, h, hc]

theorem entrySlot_level {s : State} {a : Byte} {ch : Channel} (h : s.batchFail = none) (hc : channelOf a = some ch)
    (v : Byte) : s.entrySlot (some (a, v)) = s.busXact (levelWrite ch v .entry) := by
  simp only [State.entrySlot, h, hc]

/-- A transaction of SET_CHANNEL or of a batch entry, from its first call to the end of its command or its slot. -/
theorem busXact_setChannel {s : State} {x : Xact} {r : XactResult} {rest : List Answer}
    (h : s.answers = drawsFor r ++ rest) (hc : x.caller = .setChannel) :
    s.busXact x = State.reported
      { s with xphase := none, xact := none, answers := rest,
               log := s.log ++ transactionEvents s.busAddr x.bytes r }
      (transactionReport x.regaddr r) := by
  rw [busXact_eq h]
  cases r with
  | ok => simp only [State.callerGoesOn, State.afterOk, hc, succeed_eq, drainWith_reported]; rfl
  | fail p => simp only [State.callerGoesOn, State.afterFail, hc, raise_eq, drainWith_reported]; rfl

theorem busXact_entry {s : State} {x : Xact} {r : XactResult} {rest : List Answer}
    (h : s.answers = drawsFor r ++ rest) (hc : x.caller = .entry) (hf : s.batchFail = none) :
    s.busXact x = State.slotEnded
      { s with xphase := none, xact := none, answers := rest,
               log := s.log ++ transactionEvents s.busAddr x.bytes r }
      (transactionLatch s.batchIdx x.regaddr r) := by
  rw [busXact_eq h]
  cases r with
  | ok =>
    simp only [State.callerGoesOn, State.afterOk, hc, endEntry_eq, drainWith_slotEnded, hf, ← slotEnded_answers]
    rfl
  | fail p =>
    simp only [State.callerGoesOn, State.afterFail, hc, latch_endEntry, drainWith_slotEnded, ← slotEnded_answers]
    rfl

/-! ### What a step can do -/

/-- What one consumed command can do: end with a RESULT write, open a batch, open a transaction of the command in IDLE; end a
slot or open an entry's transaction in BATCH; nothing in EXEC. -/
theorem exec_cases {i : Instr} {s t : State} (h : exec i s = .next t) :
    (s.mode = .exec ∧ t = s) ∨
    (s.mode = .idle ∧ (∃ e, (e = .invalidChannel ∨ e = .illegalCommand) ∧ t = s.raise e)) ∨
    (s.mode = .idle ∧ ∃ v, t = s.succeed v) ∨
    (s.mode = .idle ∧ ∃ n, n ≠ 0 ∧ t = { s with batchRem := n, batchIdx := 0, batchFail := none, mode := .batch }) ∨
    (s.mode = .idle ∧ ∃ x, (∃ g, x = modeWrite g) ∧ t = s.busXact x) ∨
    (s.mode = .idle ∧ ∃ x, (∃ ch v, x = levelWrite ch v .setChannel) ∧ t = s.busXact x) ∨
    (s.mode = .batch ∧ ∃ e, t = s.entrySlot e) := by
  have key : ∀ run : State → State, Host.Outcome.next (φ := Fault) (ρ := Refusal) (s.consumeHeader run) = .next t →
      (s.mode = .exec ∧ t = s) ∨ (s.mode = .idle ∧ t = run s) ∨ (s.mode = .batch ∧ t = s.entrySlot none) := by
    intro run hr
    cases hr
    unfold State.consumeHeader
    cases hm : s.mode <;> simp
  cases i with
  | init c =>
    rcases key _ h with h | ⟨hm, h⟩ | ⟨hm, h⟩
    · exact .inl h
    · exact .inr (.inr (.inr (.inr (.inl ⟨hm, _, ⟨_, rfl⟩, h⟩))))
    · exact .inr (.inr (.inr (.inr (.inr (.inr ⟨hm, _, h⟩)))))
  | setChannel a v =>
    rcases key _ h with h | ⟨hm, h⟩ | ⟨hm, h⟩
    · exact .inl h
    · cases hc : channelOf a with
      | none => simp only [hc] at h; exact .inr (.inl ⟨hm, _, .inl rfl, h⟩)
      | some ch =>
        simp only [hc] at h
        exact .inr (.inr (.inr (.inr (.inr (.inl ⟨hm, _, ⟨_, _, rfl⟩, h⟩)))))
    · exact .inr (.inr (.inr (.inr (.inr (.inr ⟨hm, _, h⟩)))))
  | setChannels n =>
    rcases key _ h with h | ⟨hm, h⟩ | ⟨hm, h⟩
    · exact .inl h
    · by_cases hn : n = 0
      · simp only [hn, if_true] at h; exact .inr (.inr (.inl ⟨hm, _, h⟩))
      · simp only [if_neg hn] at h; exact .inr (.inr (.inr (.inl ⟨hm, n, hn, h⟩)))
    · exact .inr (.inr (.inr (.inr (.inr (.inr ⟨hm, _, h⟩)))))
  | entry a v =>
    simp only [exec, execEntry] at h
    cases hm : s.mode with
    | idle => simp only [hm] at h; cases h; exact .inr (.inl ⟨rfl, _, .inr rfl, rfl⟩)
    | batch => simp only [hm] at h; cases h; exact .inr (.inr (.inr (.inr (.inr (.inr ⟨rfl, _, rfl⟩)))))
    | exec => simp only [hm] at h; cases h; exact .inl ⟨rfl, rfl⟩
  | qPwmReg a =>
    rcases key _ h with h | ⟨hm, h⟩ | ⟨hm, h⟩
    · exact .inl h
    · unfold State.queryRegister at h
      cases hc : channelOf a with
      | none => simp only [hc] at h; exact .inr (.inl ⟨hm, _, .inl rfl, h⟩)
      | some ch => simp only [hc] at h; exact .inr (.inr (.inl ⟨hm, _, h⟩))
    · exact .inr (.inr (.inr (.inr (.inr (.inr ⟨hm, _, h⟩)))))
  | qGainReg a =>
    rcases key _ h with h | ⟨hm, h⟩ | ⟨hm, h⟩
    · exact .inl h
    · unfold State.queryRegister at h
      cases hc : channelOf a with
      | none => simp only [hc] at h; exact .inr (.inl ⟨hm, _, .inl rfl, h⟩)
      | some ch => simp only [hc] at h; exact .inr (.inr (.inl ⟨hm, _, h⟩))
    · exact .inr (.inr (.inr (.inr (.inr (.inr ⟨hm, _, h⟩)))))
  | qWithAi a =>
    simp only [exec, execQWithAi] at h
    split at h
    · rcases key _ h with h | ⟨hm, h⟩ | ⟨hm, h⟩
      · exact .inl h
      · exact .inr (.inr (.inl ⟨hm, _, h⟩))
      · exact .inr (.inr (.inr (.inr (.inr (.inr ⟨hm, _, h⟩)))))
    · rcases key _ h with h | ⟨hm, h⟩ | ⟨hm, h⟩
      · exact .inl h
      · exact .inr (.inl ⟨hm, _, .inr rfl, h⟩)
      · exact .inr (.inr (.inr (.inr (.inr (.inr ⟨hm, _, h⟩)))))
  | qGainCode c =>
    rcases key _ h with h | ⟨hm, h⟩ | ⟨hm, h⟩
    · exact .inl h
    · exact .inr (.inr (.inl ⟨hm, _, h⟩))
    · exact .inr (.inr (.inr (.inr (.inr (.inr ⟨hm, _, h⟩)))))

/-- What one entry slot can do (R146): end, with the failure latched that was or one of the two found before any bus
activity, or open the transaction of its level. -/
theorem entrySlot_cases (s : State) (e : Option (Byte × Byte)) :
    (s.batchFail ≠ none ∧ s.entrySlot e = s.endEntry) ∨
    (s.batchFail = none ∧ ∃ c, (c = .illegalCommand ∨ c = .invalidChannel) ∧
      s.entrySlot e = (s.latch c none 0).endEntry) ∨
    (s.batchFail = none ∧ ∃ a v ch, e = some (a, v) ∧ channelOf a = some ch ∧
      s.entrySlot e = s.busXact (levelWrite ch v .entry)) := by
  unfold State.entrySlot
  cases hf : s.batchFail with
  | some f => exact .inl ⟨by simp, rfl⟩
  | none =>
    cases e with
    | none => exact .inr (.inl ⟨rfl, _, .inl rfl, rfl⟩)
    | some av =>
      obtain ⟨a, v⟩ := av
      cases hc : channelOf a with
      | none => exact .inr (.inl ⟨rfl, _, .inr rfl, by simp only [hc]⟩)
      | some ch => exact .inr (.inr ⟨rfl, a, v, ch, rfl, hc, by simp only [hc]⟩)

/-- What one step can do (R31, R70, R217): wait for a word; take one and run it, as a command or as a word that matches no
row; or go on with the transport's responses. -/
theorem step_cases {s t : State} (h : step s = .next t) :
    (s.mode ≠ .exec ∧ s.port = [] ∧ t = s) ∨
    (s.mode ≠ .exec ∧ ∃ w ws i, s.port = w :: ws ∧ decode w = .command i ∧ exec i { s with port := ws } = .next t) ∨
    (s.mode ≠ .exec ∧ ∃ w ws why, s.port = w :: ws ∧ decode w = .illegal why ∧
      t = State.illegalWord { s with port := ws }) ∨
    (∃ x p, s.outstanding = some (x, p) ∧ t = s.drain) := by
  unfold step at h
  split at h
  · rename_i hr
    have hm : s.mode ≠ .exec := by intro hm; simp [State.cmdReady, hm] at hr
    unfold State.takeWord at h
    cases hp : s.port with
    | nil => simp only [hp] at h; cases h; exact .inl ⟨hm, rfl, rfl⟩
    | cons w ws =>
      simp only [hp] at h
      cases hd : decode w with
      | command i => simp only [hd] at h; exact .inr (.inl ⟨hm, w, ws, i, rfl, hd, h⟩)
      | illegal why => simp only [hd] at h; cases h; exact .inr (.inr (.inl ⟨hm, w, ws, why, rfl, hd, rfl⟩))
  · unfold State.resume at h
    cases ho : s.outstanding with
    | none => simp [ho] at h
    | some xp => simp only [ho] at h; cases h; exact .inr (.inr (.inr ⟨xp.1, xp.2, rfl, rfl⟩))

/-- A run of the host's machine, one step at a time. -/
theorem run_zero (s : State) : Sys2Proof.core.run 0 s = .next s := rfl

theorem run_succ {n : Nat} {s t : State} (h : step s = .next t) :
    Sys2Proof.core.run (n + 1) s = Sys2Proof.core.run n t := by
  have h' : Sys2Proof.core.step s = .next t := h
  simp only [Host.Core.run]
  split
  · rename_i u hu; rw [h'] at hu; cases hu; rfl
  · rename_i u hu; rw [h'] at hu; cases hu
  · rename_i u hu; rw [h'] at hu; cases hu

/-- What a word that matches no row can do: `IllegalCommand` in IDLE, a failing slot in BATCH, nothing in EXEC. -/
theorem illegalWord_cases (s : State) :
    (s.mode = .exec ∧ s.illegalWord = s) ∨ (s.mode = .idle ∧ s.illegalWord = s.raise .illegalCommand) ∨
    (s.mode = .batch ∧ s.illegalWord = s.entrySlot none) := by
  unfold State.illegalWord State.consumeHeader
  cases hm : s.mode <;> simp

end Sys2Proof.Machine
end

