-- ==== Sys2Proof/Laws/PerInstr.lean ====
section
/-! SUPPORT. The statement made per command: its encoding lies in its own row of the opcode map (R73 to R78). -/

namespace Sys2Proof

/-- A well-formed command's word selects the command's row. -/
def Laws.EncodesItsRow.Statement (i : Instr) : Prop := i.WellFormed → i.row.selects (encode i) = true

theorem Laws.EncodesItsRow.init (c : Byte) : Laws.EncodesItsRow.Statement (.init c) :=
  fun _ => (rowInit_selects _).mpr (by simp [encode])

theorem Laws.EncodesItsRow.setChannel (ch v : Byte) : Laws.EncodesItsRow.Statement (.setChannel ch v) :=
  fun _ => (rowSetChannel_selects _).mpr (by simp [encode])

theorem Laws.EncodesItsRow.setChannels (n : Byte) : Laws.EncodesItsRow.Statement (.setChannels n) :=
  fun _ => (rowSetChannels_selects _).mpr (by simp [encode])

theorem Laws.EncodesItsRow.entry (ch v : Byte) : Laws.EncodesItsRow.Statement (.entry ch v) :=
  fun _ => (rowEntry_selects _).mpr (by simp [encode])

theorem Laws.EncodesItsRow.qPwmReg (ch : Byte) : Laws.EncodesItsRow.Statement (.qPwmReg ch) :=
  fun _ => (rowQPwmReg_selects _).mpr (by simp [encode])

theorem Laws.EncodesItsRow.qGainReg (ch : Byte) : Laws.EncodesItsRow.Statement (.qGainReg ch) :=
  fun _ => (rowQGainReg_selects _).mpr (by simp [encode])

theorem Laws.EncodesItsRow.qWithAi (a : Byte) : Laws.EncodesItsRow.Statement (.qWithAi a) := by
  intro h
  have h' : a.toNat < 128 := by simpa [Instr.WellFormed, Instr.wellFormed] using h
  exact (rowQWithAi_selects _).mpr (by simpa [encode] using h')

theorem Laws.EncodesItsRow.qGainCode (c : Byte) : Laws.EncodesItsRow.Statement (.qGainCode c) :=
  fun _ => (rowQGainCode_selects _).mpr (by simp [encode])

end Sys2Proof
end

