-- ==== Sys2Proof/Laws/Result.lean ====
section
/-! SUPPORT. What RESULT reads as after a completion: each field of the packed word (R26). -/

namespace Sys2Proof.Machine

variable (f : ResultFields)

@[simp] theorem resultStatus_pack : resultStatus f.pack = f.status := by
  ext i hi; interval_cases i <;> simp [resultStatus, ResultFields.pack]

@[simp] theorem resultPhase_pack : resultPhase f.pack = f.phase := by
  ext i hi; interval_cases i <;> simp [resultPhase, ResultFields.pack]

@[simp] theorem resultCause_pack : resultCause f.pack = f.cause := by
  ext i hi; interval_cases i <;> simp [resultCause, ResultFields.pack]

@[simp] theorem resultValid_pack : resultValid f.pack = 1#1 := by
  ext i hi; interval_cases i; simp [resultValid, ResultFields.pack]

@[simp] theorem resultRegaddr_pack : resultRegaddr f.pack = f.regaddr := by
  ext i hi; interval_cases i <;> simp [resultRegaddr, ResultFields.pack]

@[simp] theorem resultReserved_pack : resultReserved f.pack = 0#1 := by
  ext i hi; interval_cases i; simp [resultReserved, ResultFields.pack]

@[simp] theorem resultIndex_pack : resultIndex f.pack = f.index := by
  ext i hi; interval_cases i <;> simp [resultIndex, ResultFields.pack]

@[simp] theorem resultValue_pack : resultValue f.pack = f.value := by
  ext i hi; interval_cases i <;> simp [resultValue, ResultFields.pack]

end Sys2Proof.Machine
end

