-- ==== Sys2Proof/Tests/Slice0.lean ====
section
/-! SUPPORT. Tests: each expected value is of a vector of 95_test_vectors.md or of a rule of spec/, named beside it. At the end,
for each statement with hypotheses, a witness that meets them. -/

namespace Sys2Proof.Tests

open Sys2Proof.Machine

/-! ### Well-formedness: the one operand with a must-be-0 bit (R109) -/

theorem test_wf_refuses_register_address_of_eight_bits : ¬ (Instr.qWithAi 0x80#8).WellFormed := by decide
theorem test_wf_accepts_greatest_register_address : (Instr.qWithAi 0x7F#8).WellFormed := by decide

/-! ### Decode: words from R74 to R78 and the vectors -/

/-- V-I1: OP 1, RSVD 0, A 0, B 20. -/
theorem test_decode_init : decode 0b0001_000000000000_00000000_00010100#32 = .command (.init 20) := by decide
/-- V-S2: OP 2, A 23, B 255. -/
theorem test_decode_set_channel : decode 0b0010_000000000000_00010111_11111111#32 = .command (.setChannel 23 255) := by
  decide
/-- V-B2: OP 3, A 3, B 0. -/
theorem test_decode_set_channels : decode 0b0011_000000000000_00000011_00000000#32 = .command (.setChannels 3) := by
  decide
/-- V-B2: OP 4, A 4, B 200. -/
theorem test_decode_entry : decode 0b0100_000000000000_00000100_11001000#32 = .command (.entry 4 200) := by decide
/-- V-R2: OP 8, A 5, B 0. -/
theorem test_decode_q_pwm_reg : decode 0b1000_000000000000_00000101_00000000#32 = .command (.qPwmReg 5) := by decide
/-- V-R8: OP 9, A 23, B 0. -/
theorem test_decode_q_gain_reg : decode 0b1001_000000000000_00010111_00000000#32 = .command (.qGainReg 23) := by decide
/-- V-R14: OP 10, A 0x7F, B 0. -/
theorem test_decode_q_with_ai : decode 0b1010_000000000000_01111111_00000000#32 = .command (.qWithAi 0x7F) := by decide
/-- V-G3: OP 11, A 0, B 20. -/
theorem test_decode_q_gain_code : decode 0b1011_000000000000_00000000_00010100#32 = .command (.qGainCode 20) := by
  decide

/-- V-D1 to V-D5: every OP that R81 reserves. -/
theorem test_decode_reserved_opcodes :
    [0x00000000#32, 0x50000000#32, 0x60000000#32, 0x70000000#32, 0xC0000000#32, 0xD0000000#32, 0xE0000000#32,
      0xFFFFFFFF#32].map decode =
      List.replicate 8 (.illegal .reservedOpcode) := by decide
/-- V-D6, V-S9, V-I11. -/
theorem test_decode_reserved_bits :
    [0x2FFF0000#32, 0x20100032#32, 0x10010014#32].map decode =
      List.replicate 3 (.illegal .reservedBits) := by decide
/-- V-D7, V-B10, V-R16, V-R15, V-G9, and Q_GAIN_REG with B not 0. -/
theorem test_decode_operand_bits :
    [0x10000100#32, 0x30000301#32, 0x80000501#32, 0xA0008000#32, 0xB0000114#32, 0x90000501#32].map decode =
      List.replicate 6 (.illegal .operandBits) := by decide
theorem test_encode_words :
    encode (.init 20) = 0x10000014#32 ∧ encode (.setChannel 23 255) = 0x200017FF#32 ∧
    encode (.setChannels 3) = 0x30000300#32 ∧ encode (.entry 4 200) = 0x400004C8#32 ∧
    encode (.qPwmReg 5) = 0x80000500#32 ∧ encode (.qGainReg 23) = 0x90001700#32 ∧
    encode (.qWithAi 0x22) = 0xA0002200#32 ∧ encode (.qGainCode 20) = 0xB0000014#32 := by decide
theorem test_decode_table_word : decodeTableWord 32 0x200017FF = some (.setChannel 23 255) := by decide

/-! ### Steps -/

/-- The bus address of the tests. -/
def ba : BusAddr := 0x40#7

/-- Right after reset, with a bus address, these words presented and these responses drawn. -/
def ready (port : List CmdWord) (answers : List Answer) : State :=
  { State.reset with busAddr := ba, port := port, answers := answers }

/-- The block in entry slot `idx` of a batch, `rem` words to come. -/
def inSlot (idx rem : Byte) (f : Option BatchFail) (port : List CmdWord) (answers : List Answer) : State :=
  { ready port answers with mode := .batch, batchRem := rem, batchIdx := idx, batchFail := f }

/-- RESULT, MODE and the byte lists written, after `n` steps. -/
def outcome (n : Nat) (s : State) : Option (BitVec 32 × Mode × List (List Byte)) :=
  match Sys2Proof.core.run n s with
  | .next t => some (t.result, t.mode, t.log.filterMap fun e =>
      match e with
      | .call (.transportWrite bytes) _ => some bytes
      | _ => none)
  | _ => none

/-- Every call of `n` transactions accepted. -/
def accepts (n : Nat) : List Answer := List.replicate (3 * n) .accepted

/-- V-I1 and V-I5. -/
theorem test_init_completes : outcome 1 (ready [0x10000014#32] (accepts 2)) =
    some (0x00000080#32, .idle, [[0x80#8, Config.mode1AiAll], 0xA2#8 :: List.replicate 24 0x59#8]) := by rfl
/-- V-I8: the gain write's BEGIN is not acknowledged. -/
theorem test_init_gain_write_nack : outcome 1 (ready [0x10000014#32] (accepts 1 ++ [.failed])) =
    some (0x0000228A#32, .idle, [[0x80#8, Config.mode1AiAll]]) := by rfl
/-- V-S2. -/
theorem test_set_channel_completes : outcome 1 (ready [0x200017FF#32] (accepts 1)) =
    some (0x00000080#32, .idle, [[0x21#8, 0xFF#8]]) := by decide
/-- V-S8 and V-S4. -/
theorem test_set_channel_fails :
    outcome 1 (ready [0x20000032#32] [.accepted, .accepted, .failed]) = some (0x00000A9A#32, .idle, [[0x0A#8, 0x32#8]]) ∧
    outcome 1 (ready [0x2000180A#32] (accepts 1)) = some (0x00000081#32, .idle, []) := by decide
/-- The first word of V-B2: three entry words are awaited, and no RESULT is written. -/
theorem test_set_channels_opens :
    (match step (ready [0x30000300#32] []) with
      | .next t => some (t.mode, t.batchRem, t.batchIdx, t.batchFail, t.result)
      | _ => none) = some (.batch, 3, 0, none, 0) := by decide
/-- V-B1. -/
theorem test_set_channels_empty : outcome 1 (ready [0x30000000#32] []) = some (0x00000080#32, .idle, []) := by decide
/-- The last word of V-B7, of another row, in slot 2. -/
theorem test_illegal_slot :
    outcome 1 (inSlot 2 1 none [0x20000203#32] (accepts 1)) = some (0x000200E3#32, .idle, []) := by decide
/-- V-B3, entry 1 of 3: its END fails, and the failure is latched. -/
theorem test_entry_failure_is_latched :
    (match step (inSlot 1 2 none [0x400004C8#32] [.accepted, .accepted, .failed]) with
      | .next t => some (t.mode, t.batchRem, t.batchIdx, t.batchFail)
      | _ => none) = some (.batch, 1, 2, some ⟨1, .busTransactionFailed, some .callEnd, 0x0E⟩) := by decide
/-- V-B9. -/
theorem test_entry_outside_batch : outcome 1 (ready [0x40000102#32] []) = some (0x00000084#32, .idle, []) := by decide
/-- V-R3 and V-R4. -/
theorem test_q_pwm_reg : outcome 1 (ready [0x80001700#32] []) = some (0x21000080#32, .idle, []) ∧
    outcome 1 (ready [0x80001800#32] []) = some (0x00000081#32, .idle, []) := by decide
/-- V-R8 and V-R9. -/
theorem test_q_gain_reg : outcome 1 (ready [0x90001700#32] []) = some (0x39000080#32, .idle, []) ∧
    outcome 1 (ready [0x90001800#32] []) = some (0x00000081#32, .idle, []) := by decide
/-- V-R14 and V-R15. -/
theorem test_q_with_ai : outcome 1 (ready [0xA0007F00#32] []) = some (0xFF000080#32, .idle, []) ∧
    outcome 1 (ready [0xA0008000#32] []) = some (0x00000084#32, .idle, []) := by decide
/-- V-G4 and V-G5. -/
theorem test_q_gain_code : outcome 1 (ready [0xB0000038#32] []) = some (0xFA000080#32, .idle, []) ∧
    outcome 1 (ready [0xB0000039#32] []) = some (0xFF000080#32, .idle, []) := by decide
/-- V-D6: an illegal header. -/
theorem test_illegal_header : outcome 1 (ready [0x2FFF0000#32] []) = some (0x00000084#32, .idle, []) := by decide

/-- R173, rows of the table of gain codes. -/
theorem test_gain_codes :
    convertCurrentToGain 0 = 0 ∧ convertCurrentToGain 1 = 4 ∧ convertCurrentToGain 20 = 89 ∧
    convertCurrentToGain 56 = 250 ∧ convertCurrentToGain 57 = 255 ∧ convertCurrentToGain 255 = 255 := by decide

/-- Section 2.1, decode_register. -/
theorem test_decode_register :
    [0x00#7, 0x09#7, 0x0A#7, 0x21#7, 0x22#7, 0x39#7, 0x3A#7, 0x7F#7].map decodeRegister =
      [.mode1, .unnamed, .pwm 0, .pwm 23, .gain 0, .gain 23, .unnamed, .unnamed] := by decide

/-- V-X3: a reset while the WRITE call of `SET_CHANNEL 3, 9` is outstanding: no further call, and IDLE. -/
theorem test_reset_during_write :
    (match step (ready [0x20000309#32] [.accepted]) with
      | .next t => some ((t.receive .reset).mode, (t.receive .reset).log)
      | _ => none) =
      some (.idle, [.call (.transportBegin ba) (some .accepted), .call (.transportWrite [0x0D#8, 0x09#8]) none, .reset]) := by
  decide

/-- P3, the first and the seventh line of the assembly (R84), and the pairs of R85. -/
theorem test_assemble_lines :
    assembleProgram ["SET_CHANNEL 24, 10 ; out of range".toList, "".toList, "Q_WITH_AI 0x22".toList] =
      some [0x2000180A#32, 0xA0002200#32] ∧
    assembleProgram ["SET_CHANNELS [(0, 100), (4, 200), (23, 20)]".toList] =
      some [0x30000300#32, 0x40000064#32, 0x400004C8#32, 0x40001714#32] ∧
    assembleProgram ["INIT 256".toList] = none := by decide +kernel

/-! ### Witnesses: states and operands that meet the hypotheses of the statements of Obligations.lean, each clause at a boundary
value of its range -/

/-- The block with a call of `SET_CHANNEL 3, 9` outstanding. -/
def waiting (p : Phase) (answers : List Answer) : State :=
  { ready [] answers with mode := .exec, xphase := some p, xact := some ⟨0x0D#8, [0x09#8], .setChannel⟩ }

theorem test_meets_DecodeInvertsEncode : (Instr.qWithAi 127).WellFormed ∧ (Instr.init 255).WellFormed ∧
    (Instr.setChannel 255 255).WellFormed ∧ (Instr.setChannels 255).WellFormed ∧ (Instr.entry 255 255).WellFormed ∧
    (Instr.qPwmReg 255).WellFormed ∧ (Instr.qGainReg 255).WellFormed ∧ (Instr.qGainCode 255).WellFormed := by decide

theorem test_meets_DecodedWordIsItsEncoding : decode 0xA0007F00#32 = .command (.qWithAi 127) := by decide

theorem test_meets_DecodeReturnsTheUniqueRow :
    decode 0xA0007F00#32 = .command (.qWithAi 127) ∧ decode 0xA0008000#32 = .illegal .operandBits := by decide

/-- Each kind of R81, and an ENTRY word, as a header. -/
theorem test_meets_IllegalHeaderEndsIllegalCommand :
    (∀ w : CmdWord, w = 0xF0000000#32 ∨ w = 0x10010014#32 ∨ w = 0x10000100#32 ∨ w = 0x80000501#32 ∨ w = 0xA0008000#32 →
      IllegalHeader w ∧ (ready [w] []).mode = .idle ∧ (ready [w] []).port = w :: []) ∧
    decode 0x40000102#32 = .command (.entry 1 2) := by
  refine ⟨?_, by decide⟩
  rintro w (rfl | rfl | rfl | rfl | rfl) <;> exact ⟨by unfold IllegalHeader; decide +kernel, rfl, rfl⟩

theorem test_meets_StepRunsDecodedCommand :
    ((ready [0x10000014#32] []).mode ≠ .exec ∧ (ready [0x10000014#32] []).port = 0x10000014#32 :: [] ∧
      decode 0x10000014#32 = .command (.init 20)) ∧
    ((inSlot 1 1 none [0x400004C8#32] []).mode ≠ .exec ∧ decode 0x400004C8#32 = .command (.entry 4 200)) := by decide

theorem test_meets_WordTakenOnlyWhenReady :
    (ready [0x10000014#32] []).cmdReady = true ∧ (inSlot 1 1 none [] []).cmdReady = true ∧
    (waiting .callBegin []).cmdReady = false ∧
    ∃ t, step (waiting .callBegin []) = .next t := ⟨by decide, by decide, by decide, _, rfl⟩

theorem test_meets_NoCommandAcceptedInExec : (waiting .callBegin []).mode = .exec := by decide

theorem test_meets_UnansweredCallHangs :
    ∀ p : Phase, (waiting p []).mode = .exec ∧ (waiting p []).xphase = some p ∧
      (waiting p []).xact = some ⟨0x0D#8, [0x09#8], .setChannel⟩ ∧ (waiting p []).answers = [] :=
  fun _ => ⟨rfl, rfl, rfl, rfl⟩

theorem test_meets_EveryResponseIsTaken :
    (waiting .callEnd []).mode = .exec ∧ (waiting .callEnd []).xphase = some .callEnd ∧
      (waiting .callEnd []).xact = some ⟨0x0D#8, [0x09#8], .setChannel⟩ ∧ (waiting .callEnd []).answers = [] := by decide

/-- A command that waits after the first responses, and one that has ended with them. -/
theorem test_meets_LateAnswersMakeNoDifference :
    (∃ t, exec (.setChannel 3 9) { ready [] [] with answers := [.accepted] } = .next t ∧ t.mode = .exec) ∧
    (∃ t, exec (.setChannel 3 9) { ready [] [] with answers := [.failed] } = .next t ∧ t.mode = .idle) ∧
    (ready [] []).mode ≠ .exec := ⟨⟨_, rfl, rfl⟩, ⟨_, rfl, rfl⟩, by decide⟩

theorem test_meets_GainCodeIsSaturatingFloor :
    (56#8).toNat < 57 ∧ 57 ≤ (57#8).toNat ∧ (56#8).toNat ≤ (57#8).toNat := by decide

/-- The last valid and the first invalid channel, in IDLE. -/
theorem test_meets_QueryPwmRegister : (23#8).toNat < 24 ∧ 24 ≤ (24#8).toNat ∧ (ready [] []).mode = .idle := by decide

theorem test_meets_QueryGainRegister : (23#8).toNat < 24 ∧ 24 ≤ (24#8).toNat ∧ (ready [] []).mode = .idle := by decide

theorem test_meets_QueryWithAutoincrement : (ready [0xA0008000#32] []).mode = .idle ∧
    (ready [0xA0008000#32] []).port = (0xA000#16 ++ ((1#1 ++ 0#7) ++ 0x00#8)) :: [] := by decide

theorem test_meets_QueryGainCode : (ready [] []).mode = .idle := by decide

theorem test_meets_SetChannelWritesOneLevel :
    (ready [] [.accepted, .accepted, .accepted]).mode = .idle ∧ 24 ≤ (24#8).toNat ∧ (23#8).toNat < 24 ∧
    (ready [] [.accepted, .accepted, .accepted]).answers = drawsFor .ok ++ [] ∧
    ∀ p, (ready [] (drawsFor (.fail p))).answers = drawsFor (.fail p) ++ [] :=
  ⟨by decide, by decide, by decide, by decide, fun p => (List.append_nil _).symm⟩

theorem test_meets_InitWritesModeThenGains :
    (∀ l, (ready [] l).mode = .idle) ∧
    (∀ p, (ready [] (drawsFor (.fail p))).answers = drawsFor (.fail p) ++ []) ∧
    (∀ r, (ready [] (drawsFor .ok ++ (drawsFor r ++ []))).answers = drawsFor .ok ++ (drawsFor r ++ [])) :=
  ⟨fun _ => rfl, fun _ => (List.append_nil _).symm, fun _ => rfl⟩

theorem test_meets_SetChannelsOpensBatch : (ready [] []).mode = .idle ∧ (0#8) = 0 ∧ (1#8) ≠ 0 := by decide

/-- The clauses: a latched failure and any word; a word of another row; a latched failure and an ENTRY word; the first invalid
channel; the last valid one, with every outcome. -/
theorem test_meets_EntrySlot :
    (inSlot 1 1 (some ⟨0, .illegalCommand, none, 0⟩) [0x00000000#32] []).mode = .batch ∧
    (inSlot 1 1 (some ⟨0, .illegalCommand, none, 0⟩) [0x00000000#32] []).port = 0x00000000#32 :: [] ∧
    (inSlot 1 1 none [0x20000203#32] []).port = 0x20000203#32 :: [] ∧
    0x20000203#32 &&& 0xFFFF0000#32 ≠ 0x40000000#32 ∧
    (inSlot 1 1 (some ⟨0, .illegalCommand, none, 0⟩) [] []).mode = .batch ∧
    (inSlot 1 1 (some ⟨0, .illegalCommand, none, 0⟩) [] []).batchFail = some ⟨0, .illegalCommand, none, 0⟩ ∧
    (inSlot 1 1 none [] []).batchFail = none ∧ 24 ≤ (24#8).toNat ∧ (23#8).toNat < 24 ∧
    ∀ r, (inSlot 1 1 none [] (drawsFor r ++ [])).answers = drawsFor r ++ [] :=
  ⟨rfl, rfl, rfl, by decide, rfl, rfl, rfl, by decide, by decide, fun _ => rfl⟩

theorem test_meets_EntryOutsideBatchIsIllegal : (ready [] []).mode = .idle := by decide

theorem test_meets_SetChannelWaitsForEachCall :
    ∀ p, (ready [] (drawsBefore p)).mode = .idle ∧ (23#8).toNat < 24 ∧ (ready [] (drawsBefore p)).answers = drawsBefore p :=
  fun _ => ⟨rfl, by decide, rfl⟩

/-- Each call of each of INIT's two transactions. -/
theorem test_meets_InitWaitsForEachCall :
    ∀ p, (ready [] (drawsBefore p)).mode = .idle ∧ (ready [] (drawsBefore p)).answers = drawsBefore p ∧
      (ready [] (drawsFor .ok ++ drawsBefore p)).mode = .idle ∧
      (ready [] (drawsFor .ok ++ drawsBefore p)).answers = drawsFor .ok ++ drawsBefore p :=
  fun _ => ⟨rfl, rfl, rfl, rfl⟩

theorem test_meets_EntryWaitsForEachCall :
    ∀ p, (inSlot 0 1 none [] (drawsBefore p)).mode = .batch ∧ (inSlot 0 1 none [] (drawsBefore p)).batchFail = none ∧
      (23#8).toNat < 24 ∧ (inSlot 0 1 none [] (drawsBefore p)).answers = drawsBefore p :=
  fun _ => ⟨rfl, rfl, by decide, rfl⟩

/-- The reset state, with words presented and responses drawn, meets the invariant. -/
theorem inv_after_reset (port : List CmdWord) (answers : List Answer) :
    State.Inv { State.reset with port := port, answers := answers } where
  busAddr := rfl
  phase := by simp [State.reset]
  xact := by simp [State.reset]
  xactLegal := by simp [State.reset]
  batchCount := by simp [State.reset, State.InBatch]
  batchCleared := fun _ => ⟨rfl, rfl, rfl⟩
  batchActing := fun _ => rfl
  failLegal := by simp [State.reset]
  result := .inl rfl
  log := by simp [State.reset]

theorem test_meets_BatchIssuesItsEntriesInOrder :
    ∃ (s : State) (es : List (Channel × Byte)), s.Inv ∧ s.mode = .idle ∧ es.length ≤ 255 ∧
      s.port = encode (.setChannels (BitVec.ofNat 8 es.length)) ::
        (es.map fun e => encode (.entry (BitVec.ofNat 8 e.1.val) e.2)) ++ [] ∧
      s.answers = List.replicate (3 * es.length) .accepted ++ [] :=
  ⟨_, [(23, 20), (0, 100)], inv_after_reset
    [0x30000200#32, 0x40001714#32, 0x40000064#32] (List.replicate 6 .accepted), rfl, by decide, by decide, by decide⟩

/-- A failure of each of the three kinds. -/
theorem test_meets_BatchStopsAtFirstFailure :
    (∃ draws events cause phase regaddr,
      SlotFailure ba 0x20000203#32 draws events cause phase regaddr) ∧
    (∃ draws events cause phase regaddr,
      SlotFailure ba (encode (.entry 24 0)) draws events cause phase regaddr) ∧
    ∃ (s : State) (before : List (Channel × Byte)) (w : CmdWord) (draws : List Answer) (events : List Event)
      (cause : Cause) (phase : Option Phase) (regaddr : RegAddr),
      s.Inv ∧ s.mode = .idle ∧ before.length + 1 + [0x40000005#32].length ≤ 255 ∧
      SlotFailure s.busAddr w draws events cause phase regaddr ∧
      s.port = encode (.setChannels (BitVec.ofNat 8 (before.length + 1 + [0x40000005#32].length))) ::
        (before.map fun e => encode (.entry (BitVec.ofNat 8 e.1.val) e.2)) ++ w :: [0x40000005#32] ++ [] ∧
      s.answers = List.replicate (3 * before.length) .accepted ++ draws ++ [] :=
  ⟨⟨_, _, _, _, _, .notEntry _ (by decide)⟩, ⟨_, _, _, _, _, .channel 24 0 (by decide)⟩,
    _, [(0, 100)], _, _, _, _, _, _,
    inv_after_reset [0x30000300#32, 0x40000064#32, 0x40001714#32, 0x40000005#32]
      [.accepted, .accepted, .accepted, .accepted, .failed],
    rfl, by decide, .bus 23 20 .callWrite, by decide, by decide⟩

theorem test_meets_BatchTakesExactlyItsWords :
    (ready [0x30000200#32, 0x00000000#32, 0x40000064#32, 0x10000014#32] (accepts 2)).mode = .idle ∧
    [0x00000000#32, 0x40000064#32].length = (2#8).toNat ∧
    (ready [0x30000200#32, 0x00000000#32, 0x40000064#32, 0x10000014#32] (accepts 2)).port =
      encode (.setChannels 2) :: [0x00000000#32, 0x40000064#32] ++ [0x10000014#32] ∧
    TransportFair (3 * (2#8).toNat)
      (ready [0x30000200#32, 0x00000000#32, 0x40000064#32, 0x10000014#32] (accepts 2)) := by
  unfold TransportFair; decide +kernel

theorem test_meets_SetChannelFrame :
    (ready [] [.accepted]).mode = .idle ∧ ∃ t, exec (.setChannel 23 9) (ready [] [.accepted]) = .next t ∧
      t.mode = .exec ∧ ∀ ch, channelOf 23 = some ch → 0x22 ≠ (pwmRegister ch).toNat :=
  ⟨rfl, _, rfl, rfl, by decide⟩

theorem test_meets_InitFrame :
    (ready [] [.accepted]).mode = .idle ∧ ∃ t, exec (.init 20) (ready [] [.accepted]) = .next t ∧ t.mode = .exec ∧
      0x21 ≠ Config.mode1Addr.toNat ∧ ∀ ch, 0x21 ≠ (gainRegister ch).toNat :=
  ⟨rfl, _, rfl, rfl, by decide, by decide⟩

theorem test_meets_EntryFrame :
    (inSlot 1 2 none [] [.accepted]).mode = .batch ∧
    (∃ t, exec (.entry 23 9) (inSlot 1 2 none [] [.accepted]) = .next t ∧ t.mode = .exec) ∧
    (∃ t, exec (.entry 24 9) (inSlot 1 2 none [] [.accepted]) = .next t ∧ t.mode = .batch) ∧
    ∀ ch, channelOf 23 = some ch → 0x22 ≠ (pwmRegister ch).toNat :=
  ⟨rfl, ⟨_, rfl, rfl⟩, ⟨_, rfl, rfl⟩, by decide⟩

theorem test_meets_NoBusCommandsFrame :
    (ready [] []).mode = .idle ∧ (∃ t, exec (.qPwmReg 23) (ready [] []) = .next t) ∧
    ∃ t, exec (.setChannels 1) (ready [] []) = .next t := ⟨rfl, ⟨_, rfl⟩, ⟨_, rfl⟩⟩

theorem test_meets_CommittedTransactionInImage :
    Memory.wf [] = true ∧ Memory.wf [(0x00, 0xFF), (0x7F, 0x01)] = true := by decide

theorem test_meets_FailedTransactionInImage : Memory.wf [(0x00, 0xFF), (0x7F, 0x01)] = true := by decide

theorem test_meets_SetChannelImage :
    ∀ r, (ready [] (drawsFor r ++ [])).mode = .idle ∧ (23#8).toNat < 24 ∧
      (ready [] (drawsFor r ++ [])).answers = drawsFor r ++ [] := fun _ => ⟨rfl, by decide, rfl⟩

theorem test_meets_InitGuarantee :
    (ready [] (accepts 2)).mode = .idle ∧ ∃ t, exec (.init 20) (ready [] (accepts 2)) = .next t ∧ t.mode = .idle ∧
      resultStatus t.result = 0 := ⟨rfl, _, rfl, rfl, by rfl⟩

theorem test_meets_FailedInitImage :
    (∀ l, (ready [] l).mode = .idle) ∧ 23 < 24 ∧
    (∀ p, (ready [] (drawsFor (.fail p))).answers = drawsFor (.fail p) ++ []) ∧
    (∀ p, (ready [] (drawsFor .ok ++ (drawsFor (.fail p) ++ []))).answers = drawsFor .ok ++ (drawsFor (.fail p) ++ [])) :=
  ⟨fun _ => rfl, by decide, fun _ => (List.append_nil _).symm, fun _ => rfl⟩

theorem test_meets_InitAgainLeavesSameImage :
    (ready [] (accepts 4)).mode = .idle ∧ (ready [] (accepts 4)).answers = List.replicate 12 .accepted ++ [] ∧
    ∃ t u, exec (.init 20) (ready [] (accepts 4)) = .next t ∧ exec (.init 20) t = .next u :=
  ⟨rfl, rfl, _, _, rfl, rfl⟩

theorem test_meets_ResetAbandonsCommand :
    ((waiting .callWrite []).mode = .exec ∧ (waiting .callWrite []).xphase = some .callWrite ∧
      (waiting .callWrite []).xact = some ⟨0x0D#8, [0x09#8], .setChannel⟩) ∧
    (inSlot 1 1 none [] []).mode ≠ .exec := by decide

/-- A state in the middle of a batch, with the call of its last entry outstanding, and the step that ends the batch. -/
theorem test_meets_StepKeepsInvariant :
    ∃ s t : State, s.Inv ∧ step s = .next t ∧ s.mode = .exec ∧ t.mode = .idle :=
  ⟨{ State.reset with mode := .exec, xphase := some .callWrite, xact := some (levelWrite 3 9 .entry),
                      batchRem := 1, batchIdx := 254, answers := [.failed] }, _,
    { busAddr := rfl
      phase := by simp
      xact := by simp
      xactLegal := by
        intro x h
        cases h
        exact .inr (.inr (.inr ⟨3, 9, rfl⟩))
      batchCount := fun _ => by decide
      batchCleared := fun h => absurd (.inr ⟨rfl, _, rfl, rfl⟩) h
      batchActing := fun _ => rfl
      failLegal := by simp [State.reset]
      result := .inl rfl
      log := by simp [State.reset] }, rfl, rfl, rfl⟩

theorem test_meets_InputKeepsInvariant : ∃ s : State, s.Inv ∧ s.port ≠ [] :=
  ⟨_, inv_after_reset [0x10000014#32] [.accepted], by simp⟩

/-- A run from reset: the host presents `SET_CHANNEL 3, 9`, the transport answers twice, the block steps. -/
theorem reachable_write :
    ∃ s, Reachable s ∧ .call (.transportWrite [0x0D#8, 0x09#8]) (some .accepted) ∈ s.log ∧ s.mode = .exec :=
  ⟨_, .step (.input (.answer .accepted) (.input (.answer .accepted) (.input (.present 0x20000309#32) .reset))) rfl,
    by decide +kernel, rfl⟩

theorem test_meets_ReachableNeverStops : ∃ s, Reachable s ∧ s.mode = .exec :=
  let ⟨s, h, _, hm⟩ := reachable_write
  ⟨s, h, hm⟩

theorem test_meets_OnlyNamedRegistersWritten :
    ∃ s bytes r, Reachable s ∧ .call (.transportWrite bytes) r ∈ s.log :=
  let ⟨s, h, hl, _⟩ := reachable_write
  ⟨s, _, _, h, hl⟩

theorem test_meets_StepAddressesOnlyBusAddr :
    ∃ t, step (ready [0x20000309#32] [.accepted]) = .next t ∧ t.log = [.call (.transportBegin ba) (some .accepted)] :=
  ⟨_, rfl, rfl⟩

/-- The two clauses: a step that ends a command, and one that leaves it waiting. -/
theorem test_meets_OneResultPerCommand :
    (∃ s t : State, s.Inv ∧ step s = .next t ∧ t.mode = .idle ∧ s.port ≠ []) ∧
    ∃ s t : State, s.Inv ∧ step s = .next t ∧ t.mode = .exec :=
  ⟨⟨_, _, inv_after_reset [0x20000309#32] [.failed], rfl, rfl, by simp⟩,
    ⟨_, _, inv_after_reset [0x20000309#32] [.accepted], rfl, rfl⟩⟩

/-- A run from reset that wrote RESULT. -/
theorem reachable_result : ∃ s v, Reachable s ∧ .result v ∈ s.log :=
  ⟨_, 0x21000080#32, .step (.input (.present 0x80001700#32) .reset) rfl, by decide +kernel⟩

theorem test_meets_ReachableResultsAreLegal : ∃ s v, Reachable s ∧ .result v ∈ s.log := reachable_result

theorem test_meets_ValidTellsCompletion : ∃ s v, Reachable s ∧ .result v ∈ s.log := reachable_result

theorem test_meets_HistoryDoesNotMatter :
    (ready [] []).mode = .idle ∧ ∃ t, exec (.qGainCode 20) (ready [] []) = .next t := ⟨rfl, _, rfl⟩

/-- A line that has a command; the greatest operand that fits each field and the first that does not. -/
theorem test_meets_AssembledLineDecodes :
    (AsmLine.qWithAi 127).instr = some (.qWithAi 127) ∧ assemble (.qWithAi 127) = some [0xA0007F00#32] ∧
    assemble (.qWithAi 128) = none ∧ assemble (.setChannel 23 255) = some [0x200017FF#32] ∧
    assemble (.setChannel 23 256) = none := by decide

theorem test_meets_BatchPseudoInstructionExpands : [((23#8), (20#8))].length ≤ 255 := by decide

end Sys2Proof.Tests
end

/-! # When the transport answers, and what comes from outside (00_scope.md)

The statements of 00_scope.md: a response is taken by the next step, it makes no difference when the responses arrive,
and every input from outside keeps the invariant. -/

namespace Sys2Proof.Machine

/-! ### Taking a response -/

/-- With a call outstanding a step goes on with the responses drawn. -/
theorem step_of_outstanding {s : State} {x : Xact} {p : Phase} (h : s.outstanding = some (x, p)) :
    step s = .next s.drain := by
  have hready : s.cmdReady = false := by simp [State.cmdReady, (outstanding_eq_some.mp h).1]
  simp [step, hready, State.resume, h]

/-- The end of an entry slot only adds to the observation. -/
theorem log_prefix_endEntry (s : State) : s.log <+: s.endEntry.log := by
  by_cases h : s.batchRem = 1#8
  · rw [endEntry_last h]; exact List.prefix_append _ _
  · rw [endEntry_more h]

/-- What the caller of `BusXact` does after its return only adds to the observation. -/
theorem log_prefix_callerGoesOn (s : State) (x : Xact) (r : XactResult) : s.log <+: (s.callerGoesOn x r).log := by
  cases r with
  | ok =>
    unfold State.callerGoesOn State.afterOk
    cases x.caller with
    | initMode g => exact List.prefix_rfl
    | initGain | setChannel => exact List.prefix_append _ _
    | entry => exact log_prefix_endEntry s
  | fail p =>
    unfold State.callerGoesOn State.afterFail
    cases x.caller with
    | initMode _ | initGain | setChannel => exact List.prefix_append _ _
    | entry => exact log_prefix_endEntry (s.latch .busTransactionFailed (some p) x.regaddr)

theorem log_prefix_closeXact (s : State) (x : Xact) (r : XactResult) : s.log <+: (s.closeXact x r).log :=
  (List.prefix_append s.log [.xact x.bytes r]).trans
    (log_prefix_callerGoesOn { s with xphase := none, xact := none, log := s.log ++ [.xact x.bytes r] } x r)

/-- A response is observed with its call before anything that follows from it. -/
theorem log_prefix_onAnswer (s : State) (x : Xact) (p : Phase) (r : Answer) :
    s.log ++ [.call (x.callAt s.busAddr p) (some r)] <+: (s.onAnswer x p r).log := by
  cases r with
  | failed => exact log_prefix_closeXact (s.record _) x (.fail p)
  | accepted =>
    cases p with
    | callBegin | callWrite => exact List.prefix_rfl
    | callEnd => exact log_prefix_closeXact (s.record _) x .ok

/-- Settles O10: the step is `onAnswer` with the one response drawn. -/
theorem everyResponseIsTaken : Obligations.EveryResponseIsTaken := by
  unfold Obligations.EveryResponseIsTaken
  intro s x p r hmode hphase hxact hanswers
  have hout : s.outstanding = some (x, p) := outstanding_eq_some.mpr ⟨hmode, hphase, hxact⟩
  have hout' : (s.receive (.answer r)).outstanding = some (x, p) := hout
  have hdrain : (s.receive (.answer r)).drain = (s.onAnswer x p r).drainWith [] := by
    simp only [State.drain, State.receive, drainWith_answers, hanswers, List.nil_append]
    exact drainWith_outstanding hout r []
  obtain ⟨events, hlog⟩ := log_prefix_onAnswer s x p r
  refine ⟨_, events, step_of_outstanding hout', ?_⟩
  rw [hdrain, drainWith_nil]
  simpa using hlog.symm

/-! ### When the responses arrive -/

/-- MODE = EXEC only with a transport call outstanding (R23, R25). -/
def State.CallInExec (s : State) : Prop := s.mode = .exec → s.outstanding ≠ none

theorem callInExec_of_mode {s : State} (h : s.mode ≠ .exec) : s.CallInExec := fun he => absurd he h

theorem callInExec_of_outstanding {s : State} {x : Xact} {p : Phase} (h : s.outstanding = some (x, p)) :
    s.CallInExec := fun _ => by simp [h]

theorem endEntry_mode_ne_exec (s : State) : s.endEntry.mode ≠ .exec := by
  rw [endEntry_eq]; exact slotEnded_mode_ne_exec s _

/-- After `BusXact` returns, the command or the slot ends, or INIT's second transaction is open (R131). -/
theorem callInExec_callerGoesOn {s : State} (x : Xact) (r : XactResult) : (s.callerGoesOn x r).CallInExec := by
  cases r with
  | ok =>
    unfold State.callerGoesOn State.afterOk
    cases x.caller with
    | initMode g => exact callInExec_of_outstanding (outstanding_openXact s _)
    | initGain | setChannel => exact callInExec_of_mode (by simp [State.succeed])
    | entry => exact callInExec_of_mode (endEntry_mode_ne_exec s)
  | fail p =>
    unfold State.callerGoesOn State.afterFail
    cases x.caller with
    | initMode _ | initGain | setChannel => exact callInExec_of_mode (by simp [State.raise])
    | entry => exact callInExec_of_mode (endEntry_mode_ne_exec _)

theorem callInExec_onAnswer {s : State} {x : Xact} {p : Phase} (h : s.outstanding = some (x, p)) (r : Answer) :
    (s.onAnswer x p r).CallInExec := by
  obtain ⟨hmode, -, hxact⟩ := outstanding_eq_some.mp h
  cases r with
  | failed => exact callInExec_callerGoesOn x (.fail p)
  | accepted =>
    cases p with
    | callBegin => exact callInExec_of_outstanding (p := .callWrite) (outstanding_eq_some.mpr ⟨hmode, rfl, hxact⟩)
    | callWrite => exact callInExec_of_outstanding (p := .callEnd) (outstanding_eq_some.mpr ⟨hmode, rfl, hxact⟩)
    | callEnd => exact callInExec_callerGoesOn x .ok

theorem callInExec_drainWith {s : State} (h : s.CallInExec) (l : List Answer) : (s.drainWith l).CallInExec :=
  drainWith_keeps (P := State.CallInExec) (fun _ _ h => h) (fun _ _ _ r _ ho => callInExec_onAnswer ho r) l h

/-- What `f` makes of `s` uses the responses only to answer the calls it makes: it is one state, the same for every list
of responses, drained with the list. -/
def State.Drains (s : State) (f : State → State) : Prop :=
  ∃ u : State, u.CallInExec ∧ ∀ l, f { s with answers := l } = u.drainWith l

theorem drains_congr {s : State} {f g : State → State} (hg : s.Drains g)
    (h : ∀ l, f { s with answers := l } = g { s with answers := l }) : s.Drains f := by
  obtain ⟨u, hu, hgu⟩ := hg
  exact ⟨u, hu, fun l => (h l).trans (hgu l)⟩

/-- An operation that leaves the responses alone and makes no transport call. -/
theorem drains_of_mode {s : State} {f : State → State} (hmode : (f s).mode ≠ .exec)
    (hf : ∀ l, f { s with answers := l } = { f s with answers := l }) : s.Drains f :=
  ⟨f s, callInExec_of_mode hmode, fun l => by rw [hf, drainWith_settled (outstanding_none_of_mode hmode)]⟩

theorem drains_complete (s : State) (f : ResultFields) : s.Drains (·.complete f) :=
  drains_of_mode (by simp) fun _ => rfl

theorem drains_busXact (s : State) (x : Xact) : s.Drains (·.busXact x) :=
  ⟨s.openXact x, callInExec_of_outstanding (outstanding_openXact s x), fun l => drainWith_answers (s.openXact x) l l⟩

theorem drains_endEntry (s : State) : s.Drains (·.endEntry) :=
  drains_of_mode (endEntry_mode_ne_exec s) (endEntry_answers s)

theorem drains_latch_endEntry (s : State) (c : Cause) (p : Option Phase) (a : RegAddr) :
    s.Drains fun t => (t.latch c p a).endEntry :=
  drains_of_mode (endEntry_mode_ne_exec _) (endEntry_answers (s.latch c p a))

theorem drains_entrySlot (s : State) (e : Option (Byte × Byte)) : s.Drains (·.entrySlot e) := by
  cases hf : s.batchFail with
  | some f =>
    exact drains_congr (drains_endEntry s) fun l => entrySlot_discard (s := { s with answers := l }) hf e
  | none =>
    match e with
    | none =>
      exact drains_congr (drains_latch_endEntry s _ _ _) fun l => entrySlot_notEntry (s := { s with answers := l }) hf
    | some (a, v) =>
      cases hc : channelOf a with
      | none =>
        exact drains_congr (drains_latch_endEntry s _ _ _)
          fun l => entrySlot_badChannel (s := { s with answers := l }) hf hc v
      | some ch =>
        exact drains_congr (drains_busXact s _) fun l => entrySlot_level (s := { s with answers := l }) hf hc v

theorem drains_consumeHeader {s : State} (hs : s.mode ≠ .exec) {run : State → State} (h : s.Drains run) :
    s.Drains (·.consumeHeader run) := by
  cases hm : s.mode with
  | idle => exact drains_congr h fun l => consumeHeader_idle (s := { s with answers := l }) hm run
  | batch =>
    exact drains_congr (drains_entrySlot s none) fun l => consumeHeader_batch (s := { s with answers := l }) hm run
  | exec => exact absurd hm hs

theorem drains_queryRegister (s : State) (a : Byte) (reg : Channel → RegAddr) : s.Drains (·.queryRegister a reg) := by
  unfold State.queryRegister
  cases channelOf a with
  | none => exact drains_complete s _
  | some ch => exact drains_complete s _

/-- Outside EXEC every command uses the responses only to answer the calls it makes. -/
theorem exec_drains (i : Instr) {s : State} (hs : s.mode ≠ .exec) :
    ∃ f, s.Drains f ∧ ∀ l, exec i { s with answers := l } = .next (f { s with answers := l }) := by
  cases i with
  | init c => exact ⟨_, drains_consumeHeader hs (drains_busXact s _), fun _ => rfl⟩
  | setChannel a v =>
    refine ⟨_, drains_consumeHeader hs ?_, fun _ => rfl⟩
    cases channelOf a with
    | none => exact drains_complete s _
    | some ch => exact drains_busXact s _
  | setChannels n =>
    refine ⟨_, drains_consumeHeader hs ?_, fun _ => rfl⟩
    by_cases hn : n = 0
    · simp only [if_pos hn]; exact drains_complete s _
    · simp only [if_neg hn]; exact drains_of_mode (by simp) fun _ => rfl
  | entry a v =>
    cases hm : s.mode with
    | idle => exact ⟨(·.raise .illegalCommand), drains_complete s _, fun _ => by simp only [exec, execEntry]⟩
    | batch => exact ⟨(·.entrySlot (some (a, v))), drains_entrySlot s _, fun _ => by simp only [exec, execEntry]⟩
    | exec => exact absurd hm hs
  | qPwmReg a => exact ⟨_, drains_consumeHeader hs (drains_queryRegister s a pwmRegister), fun _ => rfl⟩
  | qGainReg a => exact ⟨_, drains_consumeHeader hs (drains_queryRegister s a gainRegister), fun _ => rfl⟩
  | qWithAi a =>
    by_cases ha : a.toNat < 128
    · exact ⟨_, drains_consumeHeader hs (drains_complete s _), fun _ => congrArg Host.Outcome.next (if_pos ha)⟩
    · exact ⟨(·.illegalWord), drains_consumeHeader hs (drains_complete s _),
        fun _ => congrArg Host.Outcome.next (if_neg ha)⟩
  | qGainCode c => exact ⟨_, drains_consumeHeader hs (drains_complete s _), fun _ => rfl⟩

/-- Outside EXEC a drain only keeps the responses; in EXEC it is the step that takes them. -/
theorem drainWith_eq_step {t : State} (h : t.CallInExec) (l : List Answer) :
    Host.Outcome.next (t.drainWith l) =
      if t.mode = .exec then step { t with answers := l } else .next { t with answers := l } := by
  split
  next hmode =>
    obtain ⟨⟨x, p⟩, hout⟩ := Option.ne_none_iff_exists'.mp (h hmode)
    have hout' : State.outstanding { t with answers := l } = some (x, p) := hout
    rw [step_of_outstanding hout']
    exact congrArg Host.Outcome.next (drainWith_answers t l l).symm
  next hmode => rw [drainWith_settled (outstanding_none_of_mode hmode)]

/-- Settles O11: a command is one drain, and a drain may be cut in two. -/
theorem lateAnswersMakeNoDifference : Obligations.LateAnswersMakeNoDifference := by
  unfold Obligations.LateAnswersMakeNoDifference
  intro i s t first later hs hfirst
  obtain ⟨f, ⟨u, hu, hf⟩, hexec⟩ := exec_drains i hs
  rw [hexec, hf] at hfirst ⊢
  cases hfirst
  rw [drainWith_append]
  exact drainWith_eq_step (callInExec_drainWith hu first) _

/-! ### Inputs from outside -/

/-- The words presented and the responses drawn are no part of the invariant. -/
theorem inv_environment {s : State} (h : s.Inv) (port : List CmdWord) (answers : List Answer) :
    State.Inv { s with port := port, answers := answers } where
  busAddr := h.busAddr
  phase := h.phase
  xact := h.xact
  xactLegal := h.xactLegal
  batchCount := h.batchCount
  batchCleared := h.batchCleared
  batchActing := h.batchActing
  failLegal := h.failLegal
  result := h.result
  log := h.log

/-- The reset values meet the invariant with any legal observation behind them. -/
theorem inv_reset_log {log : List Event} (h : ∀ e ∈ log, e.Legal) : State.Inv { State.reset with log := log } where
  busAddr := rfl
  phase := by simp [State.reset]
  xact := by simp [State.reset]
  xactLegal := by simp [State.reset]
  batchCount := by simp [State.reset, State.InBatch]
  batchCleared := fun _ => ⟨rfl, rfl, rfl⟩
  batchActing := fun _ => rfl
  failLegal := by simp [State.reset]
  result := .inl rfl
  log := h

theorem levelWrite_bytes (ch : Channel) (v : Byte) (c : Caller) :
    (levelWrite ch v c).bytes = [0x0A#8 + BitVec.ofNat 8 ch.val, v] := by
  rw [(levelWrite_of_channelOf (channelOf_ofNat ch) v c).1]; rfl

/-- The bytes of a transaction the block opens are one of the lists of R83. -/
theorem issuedBytes_of_legal {x : Xact} (h : x.Legal) : IssuedBytes x.bytes := by
  obtain ⟨g, rfl⟩ | ⟨g, rfl⟩ | ⟨ch, v, rfl⟩ | ⟨ch, v, rfl⟩ := h
  · exact .inl (by rw [modeWrite_eq]; rfl)
  · exact .inr (.inl ⟨g, by rw [gainWrite_eq]; rfl⟩)
  · exact .inr (.inr ⟨ch, v, levelWrite_bytes ch v _⟩)
  · exact .inr (.inr ⟨ch, v, levelWrite_bytes ch v _⟩)

/-- A call of a legal transaction to `BUS_ADDR` is a legal event, whatever is answered, and unanswered too. -/
theorem legal_callAt {x : Xact} (h : x.Legal) (p : Phase) (r : Option Answer) :
    (Event.call (x.callAt Config.busAddr p) r).Legal := by
  cases p with
  | callBegin => exact rfl
  | callWrite => exact issuedBytes_of_legal h
  | callEnd => exact trivial

/-- The call that a reset abandons is one the block may make. -/
theorem legal_abandonedCall {s : State} (h : s.Inv) : ∀ e ∈ s.abandonedCall, e.Legal := by
  intro e he
  unfold State.abandonedCall at he
  cases hout : s.outstanding with
  | none => simp [hout] at he
  | some xp =>
    obtain ⟨x, p⟩ := xp
    obtain ⟨-, -, hxact⟩ := outstanding_eq_some.mp hout
    simp only [hout, List.mem_singleton] at he
    rw [he, h.busAddr]
    exact legal_callAt (h.xactLegal x hxact) p none

theorem inv_applyReset {s : State} (h : s.Inv) : s.applyReset.Inv := by
  have hlog : ∀ e ∈ s.log ++ s.abandonedCall ++ [.reset], e.Legal := by
    intro e he
    simp only [List.mem_append, List.mem_singleton] at he
    obtain (hlog | habandoned) | rfl := he
    · exact h.log e hlog
    · exact legal_abandonedCall h e habandoned
    · exact trivial
  exact inv_environment (inv_reset_log hlog) s.port s.answers

/-- Settles O46: a word and a response touch the environment alone, and a reset starts from the reset values. -/
theorem inputKeepsInvariant : Obligations.InputKeepsInvariant := by
  unfold Obligations.InputKeepsInvariant
  intro s i h
  cases i with
  | present w => exact inv_environment h (s.port ++ [w]) s.answers
  | answer r => exact inv_environment h s.port (s.answers ++ [r])
  | reset => exact inv_applyReset h

end Sys2Proof.Machine

/-! # The state of the block (10_state.md)

The statements of 10_state.md: reset and RESULT, the invariant, when a word is taken, when RESULT is written, and what the
block looks like while a transport call has not returned. -/

namespace Sys2Proof.Machine

/-! ### Reset and the layout of RESULT -/

/-- Settles O16, field by field. -/
theorem resultLayout : Obligations.ResultLayout := by
  unfold Obligations.ResultLayout
  intro f
  exact ⟨resultStatus_pack f, resultPhase_pack f, resultCause_pack f, by simp [ResultFields.pack],
    resultRegaddr_pack f, by simp [ResultFields.pack], resultIndex_pack f, resultValue_pack f⟩

/-- Settles O17: the codes are the tables of R27, R28 and R29. -/
theorem resultCodes : Obligations.ResultCodes := by
  unfold Obligations.ResultCodes
  exact ⟨⟨rfl, rfl, fun _ _ => rfl, fun _ => rfl, rfl⟩, ⟨rfl, rfl, rfl, rfl⟩, ⟨rfl, rfl, rfl⟩⟩

/-- Settles O42: the reset state is the table of R36, and nothing observed leaves every address Unknown. -/
theorem resetValues : Obligations.ResetValues := by
  unfold Obligations.ResetValues
  refine ⟨rfl, rfl, rfl, rfl, rfl, rfl, rfl, rfl, fun a => ?_⟩
  rw [State.img, reset_image.1]
  rfl

/-- Settles O44: the reset values meet the invariant, with nothing observed behind them. -/
theorem resetMeetsInvariant : Obligations.ResetMeetsInvariant := by
  unfold Obligations.ResetMeetsInvariant
  exact inv_reset_log (log := []) (by simp)

/-! ### Legal values of RESULT -/

theorem phaseCode_ne_zero (p : Option Phase) : phaseCode p ≠ 0 ↔ p ≠ none := by
  match p with
  | none | some .callBegin | some .callWrite | some .callEnd => simp [phaseCode]

theorem causeCode_ne_zero (c : Cause) : causeCode c ≠ 0 := by cases c <;> simp [causeCode]

theorem causeCode_eq_two (c : Cause) : causeCode c = 2 ↔ c = .busTransactionFailed := by
  cases c <;> simp [causeCode]

theorem resultLegal_ok (v : Byte) : ResultLegal (ResultFields.pack { status := statusOk, value := v }) := by
  simp [ResultLegal, statusOk]

theorem resultLegal_invalidChannel : ResultLegal (errorFields .invalidChannel).pack := by
  simp [ResultLegal, errorFields, statusCode]

theorem resultLegal_illegalCommand : ResultLegal (errorFields .illegalCommand).pack := by
  simp [ResultLegal, errorFields, statusCode]

theorem resultLegal_busTransactionFailed (a : RegAddr) (p : Phase) :
    ResultLegal (errorFields (.busTransactionFailed a p)).pack := by
  have hphase : ¬ phaseCode (some p) = 0#2 := (phaseCode_ne_zero _).mpr (by simp)
  simp [ResultLegal, errorFields, statusCode, hphase]

theorem resultLegal_partialBatchFailure {f : BatchFail} (h : f.Legal) :
    ResultLegal (errorFields (.partialBatchFailure f)).pack := by
  obtain ⟨hcause, hregaddr⟩ := h
  have hphase : phaseCode f.phase ≠ 0 ↔ causeCode f.cause = 2 := by
    rw [phaseCode_ne_zero, causeCode_eq_two, hcause]
  have hreg : f.regaddr ≠ 0 → phaseCode f.phase ≠ 0 := fun hr =>
    (phaseCode_ne_zero _).mpr fun hp => hr (hregaddr hp)
  have hcode := causeCode_ne_zero f.cause
  simpa [ResultLegal, errorFields, statusCode] using And.intro hphase (And.intro hcode hreg)

theorem resultLegal_batchResult {f : Option BatchFail} (h : ∀ g, f = some g → g.Legal) :
    ResultLegal (batchResult f) := by
  cases f with
  | none => exact resultLegal_ok 0
  | some g => exact resultLegal_partialBatchFailure (h g rfl)

/-! ### What a consumed word runs -/

/-- Open a batch of `n` entry slots (R145). -/
def State.openBatch (s : State) (n : Byte) : State :=
  { s with batchRem := n, batchIdx := 0, batchFail := none, mode := .batch }

/-- What a word consumed as a header can run: the end of its command with a legal RESULT, a batch, or a transaction of its
own. -/
inductive HeaderRun : (State → State) → Prop where
  | complete (f : ResultFields) (h : ResultLegal f.pack) : HeaderRun (·.complete f)
  | openBatch (n : Byte) (h : n ≠ 0) : HeaderRun (·.openBatch n)
  | busXact (x : Xact) (h : x.Legal) (hc : x.caller ≠ .entry) : HeaderRun (·.busXact x)

theorem headerRun_queryRegister (a : Byte) (reg : Channel → RegAddr) : HeaderRun (·.queryRegister a reg) := by
  unfold State.queryRegister
  cases channelOf a with
  | none => exact .complete _ resultLegal_invalidChannel
  | some ch => exact .complete _ (resultLegal_ok _)

/-- Which of these a command runs in IDLE does not depend on the state. -/
theorem exec_header (i : Instr) :
    ∃ run, HeaderRun run ∧ ∀ s : State, s.mode = .idle → exec i s = .next (run s) := by
  have consumed : ∀ {run : State → State} {s : State}, s.mode = .idle →
      Host.Outcome.next (φ := Fault) (ρ := Refusal) (s.consumeHeader run) = .next (run s) :=
    fun hm => congrArg Host.Outcome.next (consumeHeader_idle hm _)
  cases i with
  | init c => exact ⟨_, .busXact (modeWrite _) (.inl ⟨_, rfl⟩) (by simp [modeWrite]), fun _ => consumed⟩
  | setChannel a v =>
    refine ⟨_, ?_, fun _ => consumed⟩
    cases channelOf a with
    | none => exact .complete _ resultLegal_invalidChannel
    | some ch => exact .busXact _ (.inr (.inr (.inl ⟨ch, v, rfl⟩))) (by simp [levelWrite])
  | setChannels n =>
    refine ⟨_, ?_, fun _ => consumed⟩
    by_cases hn : n = 0
    · simp only [if_pos hn]; exact .complete _ (resultLegal_ok 0)
    · simp only [if_neg hn]; exact .openBatch n hn
  | entry a v =>
    exact ⟨_, .complete _ resultLegal_illegalCommand, fun s hm => by simp only [exec, execEntry, hm]; rfl⟩
  | qPwmReg a => exact ⟨_, headerRun_queryRegister a pwmRegister, fun _ => consumed⟩
  | qGainReg a => exact ⟨_, headerRun_queryRegister a gainRegister, fun _ => consumed⟩
  | qWithAi a =>
    by_cases ha : a.toNat < 128
    · exact ⟨_, .complete _ (resultLegal_ok _),
        fun _ hm => by simp only [exec, execQWithAi, if_pos ha]; exact consumed hm⟩
    · exact ⟨_, .complete _ resultLegal_illegalCommand,
        fun _ hm => by simp only [exec, execQWithAi, if_neg ha]; exact consumed hm⟩
  | qGainCode c => exact ⟨_, .complete _ (resultLegal_ok _), fun _ => consumed⟩

/-- In BATCH every command stands in an entry slot (R80, R82). -/
theorem exec_slot (i : Instr) :
    ∃ e, ∀ s : State, s.mode = .batch → exec i s = .next (s.entrySlot e) := by
  have consumed : ∀ {run : State → State} {s : State}, s.mode = .batch →
      Host.Outcome.next (φ := Fault) (ρ := Refusal) (s.consumeHeader run) = .next (s.entrySlot none) :=
    fun hm => congrArg Host.Outcome.next (consumeHeader_batch hm _)
  cases i with
  | entry a v => exact ⟨some (a, v), fun s hm => by simp only [exec, execEntry, hm]⟩
  | qWithAi a =>
    refine ⟨none, fun s hm => ?_⟩
    simp only [exec, execQWithAi]
    split
    · exact consumed hm
    · exact consumed hm
  | init c | setChannel a v | setChannels n | qPwmReg a | qGainReg a | qGainCode c =>
    exact ⟨none, fun _ => consumed⟩

/-- Settles O8: a header and an entry are both turned away in EXEC. -/
theorem noCommandAcceptedInExec : Obligations.NoCommandAcceptedInExec := by
  unfold Obligations.NoCommandAcceptedInExec
  intro i s hm
  have turned : ∀ run : State → State,
      Host.Outcome.next (φ := Fault) (ρ := Refusal) (s.consumeHeader run) = .next s :=
    fun run => congrArg Host.Outcome.next (consumeHeader_exec hm run)
  cases i with
  | entry a v => simp only [exec, execEntry, hm]
  | qWithAi a =>
    simp only [exec, execQWithAi]
    split
    · exact turned _
    · exact turned _
  | init c | setChannel a v | setChannels n | qPwmReg a | qGainReg a | qGainCode c => exact turned _

/-! ### What a step does, by MODE -/

theorem mode_cases (s : State) : s.mode = .idle ∨ s.mode = .batch ∨ s.mode = .exec := by
  cases s.mode <;> simp

theorem cmdReady_iff (s : State) : s.cmdReady = true ↔ s.mode = .idle ∨ s.mode = .batch := by
  unfold State.cmdReady
  cases s.mode <;> simp

theorem cmdReady_iff_ne_exec (s : State) : s.cmdReady = true ↔ s.mode ≠ .exec := by
  unfold State.cmdReady
  cases s.mode <;> simp

/-- With no word presented a ready block waits. -/
theorem step_of_port_nil {s : State} (hr : s.cmdReady = true) (hp : s.port = []) : step s = .next s := by
  simp only [step, hr, if_true, State.takeWord, hp]

theorem step_of_command {s : State} {w : CmdWord} {ws : List CmdWord} {i : Instr} (hr : s.cmdReady = true)
    (hp : s.port = w :: ws) (hd : decode w = .command i) : step s = exec i { s with port := ws } := by
  simp only [step, hr, if_true, State.takeWord, hp, hd]

theorem step_of_illegal {s : State} {w : CmdWord} {ws : List CmdWord} {why : Illegal} (hr : s.cmdReady = true)
    (hp : s.port = w :: ws) (hd : decode w = .illegal why) :
    step s = .next (State.illegalWord { s with port := ws }) := by
  simp only [step, hr, if_true, State.takeWord, hp, hd]

theorem step_header {s : State} {w : CmdWord} {ws : List CmdWord} (hm : s.mode = .idle) (hp : s.port = w :: ws) :
    ∃ run, HeaderRun run ∧ step s = .next (run { s with port := ws }) := by
  have hr := (cmdReady_iff s).mpr (.inl hm)
  cases hd : decode w with
  | command i =>
    obtain ⟨run, hrun, hexec⟩ := exec_header i
    exact ⟨run, hrun, (step_of_command hr hp hd).trans (hexec { s with port := ws } hm)⟩
  | illegal why =>
    exact ⟨_, .complete _ resultLegal_illegalCommand, (step_of_illegal hr hp hd).trans
      (congrArg Host.Outcome.next (consumeHeader_idle (s := { s with port := ws }) hm _))⟩

theorem step_slot {s : State} {w : CmdWord} {ws : List CmdWord} (hm : s.mode = .batch) (hp : s.port = w :: ws) :
    ∃ e, step s = .next (State.entrySlot { s with port := ws } e) := by
  have hr := (cmdReady_iff s).mpr (.inr hm)
  cases hd : decode w with
  | command i =>
    obtain ⟨e, hexec⟩ := exec_slot i
    exact ⟨e, (step_of_command hr hp hd).trans (hexec { s with port := ws } hm)⟩
  | illegal why =>
    exact ⟨none, (step_of_illegal hr hp hd).trans
      (congrArg Host.Outcome.next (consumeHeader_batch (s := { s with port := ws }) hm _))⟩

/-- What a step that answers a next state did, by MODE (R31, R80, R217). -/
theorem step_by_mode {s t : State} (h : step s = .next t) :
    (s.mode ≠ .exec ∧ s.port = [] ∧ t = s) ∨
    (s.mode = .idle ∧ ∃ w ws run, s.port = w :: ws ∧ HeaderRun run ∧ t = run { s with port := ws }) ∨
    (s.mode = .batch ∧ ∃ w ws e, s.port = w :: ws ∧ t = State.entrySlot { s with port := ws } e) ∨
    (s.mode = .exec ∧ ∃ x p, s.outstanding = some (x, p) ∧ t = s.drain) := by
  have same : ∀ {u}, step s = .next u → t = u := fun hu => by rw [h] at hu; cases hu; rfl
  obtain hm | hm | hm := mode_cases s
  · cases hp : s.port with
    | nil => exact .inl ⟨by simp [hm], rfl, same (step_of_port_nil ((cmdReady_iff s).mpr (.inl hm)) hp)⟩
    | cons w ws =>
      obtain ⟨run, hrun, hstep⟩ := step_header hm hp
      exact .inr (.inl ⟨hm, w, ws, run, rfl, hrun, same hstep⟩)
  · cases hp : s.port with
    | nil => exact .inl ⟨by simp [hm], rfl, same (step_of_port_nil ((cmdReady_iff s).mpr (.inr hm)) hp)⟩
    | cons w ws =>
      obtain ⟨e, hstep⟩ := step_slot hm hp
      exact .inr (.inr (.inl ⟨hm, w, ws, e, rfl, same hstep⟩))
  · obtain ⟨hne, -⟩ | ⟨hne, -⟩ | ⟨hne, -⟩ | hdrain := step_cases h
    · exact absurd hm hne
    · exact absurd hm hne
    · exact absurd hm hne
    · exact .inr (.inr (.inr ⟨hm, hdrain⟩))

/-! ### The invariant, mode by mode -/

/-- The part of the invariant that MODE does not decide. -/
structure State.Kept (s : State) : Prop where
  busAddr : s.busAddr = Config.busAddr
  result : s.result = 0 ∨ ResultLegal s.result
  log : ∀ e ∈ s.log, e.Legal

/-- No transaction is open. -/
def State.Quiet (s : State) : Prop := s.xphase = none ∧ s.xact = none

/-- The batch registers count the slots of a batch (R24). -/
def State.Counting (s : State) : Prop := 0 < s.batchRem.toNat ∧ s.batchIdx.toNat + s.batchRem.toNat ≤ 255

/-- The batch registers while the transaction of caller `c` is in progress: nothing is latched, a batch is counted exactly
for an entry, and else cleared. -/
structure State.ActsFor (s : State) (c : Caller) : Prop where
  fail : s.batchFail = none
  counting : c = .entry → s.Counting
  cleared : c ≠ .entry → s.BatchCleared

/-- A state whose entry slot is about to end: a latched failure is of this slot or of one before it. -/
structure State.EndsSlot (s : State) : Prop where
  kept : s.Kept
  quiet : s.Quiet
  counting : s.Counting
  fail : ∀ f, s.batchFail = some f → f.Legal ∧ f.index.toNat ≤ s.batchIdx.toNat

theorem kept_of_inv {s : State} (h : s.Inv) : s.Kept := ⟨h.busAddr, h.result, h.log⟩

theorem kept_observed {s : State} (h : s.Kept) {e : Event} (he : e.Legal) : (s.record e).Kept where
  busAddr := h.busAddr
  result := h.result
  log := by
    intro e' he'
    simp only [record_log, List.mem_append, List.mem_singleton] at he'
    obtain hold | rfl := he'
    · exact h.log e' hold
    · exact he

theorem kept_reported {s : State} (h : s.Kept) {v : BitVec 32} (hv : ResultLegal v) : (s.reported v).Kept where
  busAddr := h.busAddr
  result := .inr hv
  log := (kept_observed (e := .result v) h hv).log

theorem not_inBatch_of_idle {s : State} (hm : s.mode = .idle) : ¬ s.InBatch := by simp [State.InBatch, hm]

theorem inBatch_iff_of_exec {s : State} {x : Xact} (hm : s.mode = .exec) (hx : s.xact = some x) :
    s.InBatch ↔ x.caller = .entry := by simp [State.InBatch, hm, hx]

theorem quiet_of_inv {s : State} (h : s.Inv) (hm : s.mode ≠ .exec) : s.Quiet :=
  ⟨by_contra fun hp => hm (h.phase.mpr hp), by_contra fun hx => hm (h.xact.mpr hx)⟩

theorem inv_of_idle {s : State} (hm : s.mode = .idle) (hk : s.Kept) (hq : s.Quiet) (hb : s.BatchCleared) : s.Inv := by
  obtain ⟨hphase, hxact⟩ := hq
  obtain ⟨hrem, hidx, hfail⟩ := hb
  exact
  { busAddr := hk.busAddr
    phase := by simp [hm, hphase]
    xact := by simp [hm, hxact]
    xactLegal := by simp [hxact]
    batchCount := fun hin => absurd hin (not_inBatch_of_idle hm)
    batchCleared := fun _ => ⟨hrem, hidx, hfail⟩
    batchActing := fun _ => hfail
    failLegal := by simp [hfail]
    result := hk.result
    log := hk.log }

theorem inv_of_batch {s : State} (hm : s.mode = .batch) (hk : s.Kept) (hq : s.Quiet) (hc : s.Counting)
    (hf : ∀ f, s.batchFail = some f → f.Legal ∧ f.index.toNat < s.batchIdx.toNat) : s.Inv := by
  obtain ⟨hphase, hxact⟩ := hq
  exact
  { busAddr := hk.busAddr
    phase := by simp [hm, hphase]
    xact := by simp [hm, hxact]
    xactLegal := by simp [hxact]
    batchCount := fun _ => hc
    batchCleared := fun hout => absurd (.inl hm) hout
    batchActing := by simp [hm]
    failLegal := hf
    result := hk.result
    log := hk.log }

theorem inv_of_exec {s : State} {x : Xact} {p : Phase} (ho : s.outstanding = some (x, p)) (hk : s.Kept) (hx : x.Legal)
    (ha : s.ActsFor x.caller) : s.Inv := by
  obtain ⟨hm, hphase, hxact⟩ := outstanding_eq_some.mp ho
  exact
  { busAddr := hk.busAddr
    phase := by simp [hm, hphase]
    xact := by simp [hm, hxact]
    xactLegal := by
      intro y hy
      rw [hxact] at hy
      cases hy
      exact hx
    batchCount := fun hin => ha.counting ((inBatch_iff_of_exec hm hxact).mp hin)
    batchCleared := fun hout => ha.cleared fun hc => hout ((inBatch_iff_of_exec hm hxact).mpr hc)
    batchActing := fun _ => ha.fail
    failLegal := by simp [ha.fail]
    result := hk.result
    log := hk.log }

theorem actsFor_of_exec {s : State} {x : Xact} (h : s.Inv) (hm : s.mode = .exec) (hx : s.xact = some x) :
    s.ActsFor x.caller where
  fail := h.batchActing hm
  counting := fun hc => h.batchCount ((inBatch_iff_of_exec hm hx).mpr hc)
  cleared := fun hc => h.batchCleared fun hin => hc ((inBatch_iff_of_exec hm hx).mp hin)

/-! ### Each operation keeps the invariant -/

theorem inv_complete {s : State} {f : ResultFields} (hk : s.Kept) (hq : s.Quiet) (hb : s.BatchCleared)
    (hf : ResultLegal f.pack) : (s.complete f).Inv :=
  inv_of_idle rfl (kept_reported hk hf) hq hb

theorem inv_openXact {s : State} {x : Xact} (hk : s.Kept) (hx : x.Legal) (ha : s.ActsFor x.caller) :
    (s.openXact x).Inv :=
  inv_of_exec (outstanding_openXact s x) ⟨hk.busAddr, hk.result, hk.log⟩ hx ⟨ha.fail, ha.counting, ha.cleared⟩

theorem inv_endEntry {s : State} (h : s.EndsSlot) : s.endEntry.Inv := by
  obtain ⟨hrem, hsum⟩ := h.counting
  by_cases hlast : s.batchRem = 1#8
  · rw [endEntry_last hlast]
    have hresult : ResultLegal (batchResult s.batchFail) := resultLegal_batchResult fun f hf => (h.fail f hf).1
    have hk := kept_reported h.kept hresult
    exact inv_of_idle rfl ⟨hk.busAddr, hk.result, hk.log⟩ h.quiet ⟨rfl, rfl, rfl⟩
  · rw [endEntry_more hlast]
    have hidx : (s.batchIdx + 1).toNat = s.batchIdx.toNat + 1 := by bv_omega
    have hleft : (s.batchRem - 1).toNat = s.batchRem.toNat - 1 := by bv_omega
    have hmore : s.batchRem.toNat ≠ 1 := fun h1 => hlast (BitVec.eq_of_toNat_eq h1)
    refine inv_of_batch rfl ⟨h.kept.busAddr, h.kept.result, h.kept.log⟩ h.quiet ?_ fun f hf => ?_
    · simp only [State.Counting, hidx, hleft]; omega
    · obtain ⟨hlegal, hle⟩ := h.fail f hf
      exact ⟨hlegal, by simp only [hidx]; omega⟩

/-- Latching the first failure of a batch at the slot in progress (R146). -/
theorem inv_latch_endEntry {s : State} {c : Cause} {p : Option Phase} {a : RegAddr} (hk : s.Kept) (hq : s.Quiet)
    (hc : s.Counting) (hf : (BatchFail.mk s.batchIdx c p a).Legal) : (s.latch c p a).endEntry.Inv := by
  refine inv_endEntry ⟨⟨hk.busAddr, hk.result, hk.log⟩, hq, hc, fun f hlatched => ?_⟩
  cases hlatched
  exact ⟨hf, le_rfl⟩

theorem inv_callerGoesOn {s : State} {x : Xact} (hk : s.Kept) (hq : s.Quiet) (ha : s.ActsFor x.caller)
    (r : XactResult) : (s.callerGoesOn x r).Inv := by
  cases r with
  | ok =>
    unfold State.callerGoesOn State.afterOk
    cases hc : x.caller with
    | initMode g =>
      have hb : s.BatchCleared := ha.cleared (by simp [hc])
      exact inv_openXact hk (.inr (.inl ⟨g, rfl⟩)) ⟨ha.fail, by simp [gainWrite], fun _ => hb⟩
    | initGain | setChannel => exact inv_complete hk hq (ha.cleared (by simp [hc])) (resultLegal_ok 0)
    | entry => exact inv_endEntry ⟨hk, hq, ha.counting hc, by simp [ha.fail]⟩
  | fail p =>
    unfold State.callerGoesOn State.afterFail
    cases hc : x.caller with
    | initMode _ | initGain | setChannel =>
      exact inv_complete hk hq (ha.cleared (by simp [hc])) (resultLegal_busTransactionFailed _ p)
    | entry => exact inv_latch_endEntry hk hq (ha.counting hc) ⟨by simp, by simp⟩

theorem inv_closeXact {s : State} {x : Xact} (hk : s.Kept) (hx : x.Legal) (ha : s.ActsFor x.caller)
    (r : XactResult) : (s.closeXact x r).Inv := by
  have hk' := kept_observed (e := .xact x.bytes r) hk (issuedBytes_of_legal hx)
  exact inv_callerGoesOn (s := { s with xphase := none, xact := none, log := s.log ++ [.xact x.bytes r] })
    ⟨hk'.busAddr, hk'.result, hk'.log⟩ ⟨rfl, rfl⟩ ⟨ha.fail, ha.counting, ha.cleared⟩ r

theorem inv_onAnswer {s : State} {x : Xact} {p : Phase} (h : s.Inv) (ho : s.outstanding = some (x, p)) (r : Answer) :
    (s.onAnswer x p r).Inv := by
  obtain ⟨hm, -, hxact⟩ := outstanding_eq_some.mp ho
  have hx : x.Legal := h.xactLegal x hxact
  have ha : s.ActsFor x.caller := actsFor_of_exec h hm hxact
  have hk : (s.record (.call (x.callAt s.busAddr p) (some r))).Kept :=
    kept_observed (kept_of_inv h) (by rw [h.busAddr]; exact legal_callAt hx p _)
  have ha' : (s.record (.call (x.callAt s.busAddr p) (some r))).ActsFor x.caller :=
    ⟨ha.fail, ha.counting, ha.cleared⟩
  have hnext : ∀ q, State.outstanding { s.record (.call (x.callAt s.busAddr p) (some r)) with xphase := some q } =
      some (x, q) := fun q => outstanding_eq_some.mpr ⟨hm, rfl, hxact⟩
  cases r with
  | failed => exact inv_closeXact hk hx ha' (.fail p)
  | accepted =>
    cases p with
    | callBegin =>
      exact inv_of_exec (hnext .callWrite) ⟨hk.busAddr, hk.result, hk.log⟩ hx ⟨ha.fail, ha.counting, ha.cleared⟩
    | callWrite =>
      exact inv_of_exec (hnext .callEnd) ⟨hk.busAddr, hk.result, hk.log⟩ hx ⟨ha.fail, ha.counting, ha.cleared⟩
    | callEnd => exact inv_closeXact hk hx ha' .ok

theorem inv_drainWith {s : State} (h : s.Inv) (l : List Answer) : (s.drainWith l).Inv :=
  drainWith_keeps (P := State.Inv) (fun s l h => inv_environment h s.port l)
    (fun _ _ _ r h ho => inv_onAnswer h ho r) l h

theorem inv_busXact {s : State} {x : Xact} (hk : s.Kept) (hx : x.Legal) (ha : s.ActsFor x.caller) :
    (s.busXact x).Inv :=
  inv_drainWith (inv_openXact hk hx ha) _

theorem inv_entrySlot {s : State} (h : s.Inv) (hm : s.mode = .batch) (e : Option (Byte × Byte)) :
    (s.entrySlot e).Inv := by
  have hk := kept_of_inv h
  have hq : s.Quiet := quiet_of_inv h (by simp [hm])
  have hc : s.Counting := h.batchCount (.inl hm)
  obtain ⟨-, heq⟩ | ⟨-, c, hcause, heq⟩ | ⟨hf, a, v, ch, -, -, heq⟩ := entrySlot_cases s e
  · rw [heq]
    refine inv_endEntry ⟨hk, hq, hc, fun f hf => ?_⟩
    obtain ⟨hlegal, hlt⟩ := h.failLegal f hf
    exact ⟨hlegal, hlt.le⟩
  · rw [heq]
    exact inv_latch_endEntry hk hq hc ⟨by obtain rfl | rfl := hcause <;> simp, fun _ => rfl⟩
  · rw [heq]
    exact inv_busXact hk (.inr (.inr (.inr ⟨ch, v, rfl⟩))) ⟨hf, fun _ => hc, fun hne => absurd rfl hne⟩

theorem inv_openBatch {s : State} (hk : s.Kept) (hq : s.Quiet) {n : Byte} (hn : n ≠ 0) : (s.openBatch n).Inv := by
  have hpos : n.toNat ≠ 0 := fun h0 => hn (BitVec.eq_of_toNat_eq h0)
  have hmax : n.toNat < 256 := n.isLt
  refine inv_of_batch rfl ⟨hk.busAddr, hk.result, hk.log⟩ hq ?_ (by simp [State.openBatch])
  simp only [State.Counting, State.openBatch, BitVec.ofNat_eq_ofNat, BitVec.toNat_ofNat]
  omega

theorem inv_headerRun {s : State} {run : State → State} (h : s.Inv) (hm : s.mode = .idle) (hrun : HeaderRun run) :
    (run s).Inv := by
  have hk := kept_of_inv h
  have hq : s.Quiet := quiet_of_inv h (by simp [hm])
  have hb : s.BatchCleared := h.batchCleared (not_inBatch_of_idle hm)
  have ⟨_, _, hfail⟩ := hb
  cases hrun with
  | complete f hf => exact inv_complete hk hq hb hf
  | openBatch n hn => exact inv_openBatch hk hq hn
  | busXact x hx hc => exact inv_busXact hk hx ⟨hfail, fun he => absurd he hc, fun _ => hb⟩

/-- Settles O45: each of the four things a step can do keeps the invariant. -/
theorem stepKeepsInvariant : Obligations.StepKeepsInvariant := by
  unfold Obligations.StepKeepsInvariant
  intro s t h hstep
  obtain ⟨-, -, rfl⟩ | ⟨hm, w, ws, run, -, hrun, rfl⟩ | ⟨hm, w, ws, e, -, rfl⟩ | ⟨-, x, p, -, rfl⟩ :=
    step_by_mode hstep
  · exact h
  · exact inv_headerRun (inv_environment h ws s.answers) hm hrun
  · exact inv_entrySlot (inv_environment h ws s.answers) hm e
  · exact inv_drainWith h s.answers

/-- Every reachable state meets the invariant. -/
theorem inv_of_reachable {s : State} (h : Reachable s) : s.Inv := by
  induction h with
  | reset => exact resetMeetsInvariant
  | step _ hstep ih => exact stepKeepsInvariant _ _ ih hstep
  | input i _ ih => exact inputKeepsInvariant _ i ih

/-- Settles O51: the invariant holds of every reachable state and of its observation. -/
theorem reachableResultsAreLegal : Obligations.ReachableResultsAreLegal := by
  unfold Obligations.ReachableResultsAreLegal
  intro s h
  have hinv := inv_of_reachable h
  exact ⟨hinv.result, fun v hv => hinv.log _ hv⟩

/-! ### What a step adds to the past -/

/-- A call, or the return of a transaction. -/
def Event.OfTransport : Event → Prop
  | .call _ _ | .xact _ _ => True
  | .result _ | .reset => False

/-- `u` reached with this RESULT and this past behind it: the past grows by `events`, and then, only if `u` is in IDLE,
by the RESULT write of its own value. -/
def State.after (u : State) (events : List Event) (result : BitVec 32) (log : List Event) : State :=
  if u.mode = .idle then { u with log := log ++ events ++ [.result u.result] }
  else { u with log := log ++ events, result := result }

/-- `f` takes no word and adds to the past the same, whatever the past of `s` is. -/
def State.Runs (s : State) (f : State → State) : Prop :=
  ∃ (u : State) (events : List Event), u.port = s.port ∧ (∀ e ∈ events, e.OfTransport) ∧
    ∀ result log, f { s with result := result, log := log } = u.after events result log

theorem after_of_idle {u : State} (h : u.mode = .idle) (events : List Event) (result : BitVec 32) (log : List Event) :
    u.after events result log = { u with log := log ++ events ++ [.result u.result] } := if_pos h

theorem after_of_not_idle {u : State} (h : u.mode ≠ .idle) (events : List Event) (result : BitVec 32)
    (log : List Event) : u.after events result log = { u with log := log ++ events, result := result } := if_neg h

@[simp] theorem after_mode (u : State) (events : List Event) (result : BitVec 32) (log : List Event) :
    (u.after events result log).mode = u.mode := by unfold State.after; split <;> rfl

@[simp] theorem after_port (u : State) (events : List Event) (result : BitVec 32) (log : List Event) :
    (u.after events result log).port = u.port := by unfold State.after; split <;> rfl

theorem after_answers (u : State) (events : List Event) (result : BitVec 32) (log : List Event) (l : List Answer) :
    { u.after events result log with answers := l } = State.after { u with answers := l } events result log := by
  unfold State.after; split <;> rfl

theorem after_after_events (u : State) (es es' : List Event) (result : BitVec 32) (log : List Event) :
    u.after es' result (log ++ es) = u.after (es ++ es') result log := by
  simp only [State.after, List.append_assoc]

/-- An operation that does not touch the past and does not end in IDLE. -/
theorem runs_of_untouched {s u : State} {f : State → State} (hm : u.mode ≠ .idle) (hp : u.port = s.port)
    (hf : ∀ result log, f { s with result := result, log := log } = { u with result := result, log := log }) :
    s.Runs f :=
  ⟨u, [], hp, by simp, fun result log => by rw [hf, after_of_not_idle hm, List.append_nil]⟩

/-- An operation that ends in IDLE with a RESULT write. -/
theorem runs_of_written {s u : State} {f : State → State} (hm : u.mode = .idle) (hp : u.port = s.port)
    (hf : ∀ result log, f { s with result := result, log := log } = { u with log := log ++ [.result u.result] }) :
    s.Runs f :=
  ⟨u, [], hp, by simp, fun result log => by rw [hf, after_of_idle hm, List.append_nil]⟩

/-- Transport events first, then what runs from there. -/
theorem runs_of_observed {s v : State} {f g : State → State} {es : List Event} (hes : ∀ e ∈ es, e.OfTransport)
    (hp : v.port = s.port) (hg : v.Runs g)
    (hf : ∀ result log, f { s with result := result, log := log } =
      g { v with result := result, log := log ++ es }) : s.Runs f := by
  obtain ⟨u, es', hport, hes', hrun⟩ := hg
  refine ⟨u, es ++ es', hport.trans hp, ?_, fun result log => by rw [hf, hrun, after_after_events]⟩
  intro e he
  exact (List.mem_append.mp he).elim (hes e) (hes' e)

theorem runs_complete (s : State) (f : ResultFields) : s.Runs (·.complete f) :=
  runs_of_written (u := s.complete f) rfl rfl fun _ _ => rfl

theorem runs_openXact (s : State) (x : Xact) : s.Runs (·.openXact x) :=
  runs_of_untouched (u := s.openXact x) (by simp) rfl fun _ _ => rfl

theorem runs_endEntry (s : State) : s.Runs (·.endEntry) := by
  by_cases h : s.batchRem = 1#8
  · refine runs_of_written (u := s.endEntry) ?_ ?_ fun result log => ?_
    · rw [endEntry_last h]
    · rw [endEntry_last h]
    · rw [endEntry_last h, endEntry_last (s := { s with result := result, log := log }) h]
  · refine runs_of_untouched (u := s.endEntry) ?_ ?_ fun result log => ?_
    · rw [endEntry_more h]; simp
    · rw [endEntry_more h]
    · rw [endEntry_more h, endEntry_more (s := { s with result := result, log := log }) h]

theorem runs_latch_endEntry (s : State) (c : Cause) (p : Option Phase) (a : RegAddr) :
    s.Runs fun t => (t.latch c p a).endEntry :=
  runs_endEntry (s.latch c p a)

theorem runs_callerGoesOn (s : State) (x : Xact) (r : XactResult) : s.Runs (·.callerGoesOn x r) := by
  cases r with
  | ok =>
    unfold State.callerGoesOn State.afterOk
    cases x.caller with
    | initMode g => exact runs_openXact s _
    | initGain | setChannel => exact runs_complete s _
    | entry => exact runs_endEntry s
  | fail p =>
    unfold State.callerGoesOn State.afterFail
    cases x.caller with
    | initMode _ | initGain | setChannel => exact runs_complete s _
    | entry => exact runs_latch_endEntry s _ _ _

theorem runs_closeXact (s : State) (x : Xact) (r : XactResult) : s.Runs (·.closeXact x r) :=
  runs_of_observed (v := { s with xphase := none, xact := none }) (es := [.xact x.bytes r])
    (by simp [Event.OfTransport]) rfl (runs_callerGoesOn _ x r) fun _ _ => rfl

theorem runs_onAnswer {s : State} (hm : s.mode = .exec) (x : Xact) (p : Phase) (r : Answer) :
    s.Runs (·.onAnswer x p r) := by
  have observed : ∀ {v : State} {g : State → State}, v.port = s.port → v.Runs g →
      (∀ result log, State.onAnswer { s with result := result, log := log } x p r =
        g { v with result := result, log := log ++ [.call (x.callAt s.busAddr p) (some r)] }) →
      s.Runs (·.onAnswer x p r) := fun hp hg hf => runs_of_observed (by simp [Event.OfTransport]) hp hg hf
  have waits : ∀ q, State.Runs { s with xphase := some q } id := fun q =>
    runs_of_untouched (u := { s with xphase := some q }) (by simp [hm]) rfl fun _ _ => rfl
  cases r with
  | failed => exact observed rfl (runs_closeXact s x (.fail p)) fun _ _ => rfl
  | accepted =>
    cases p with
    | callBegin => exact observed (v := { s with xphase := some .callWrite }) rfl (waits _) fun _ _ => rfl
    | callWrite => exact observed (v := { s with xphase := some .callEnd }) rfl (waits _) fun _ _ => rfl
    | callEnd => exact observed rfl (runs_closeXact s x .ok) fun _ _ => rfl

theorem runs_settled {s : State} (hm : s.mode ≠ .idle) (ho : s.outstanding = none) (l : List Answer) :
    s.Runs (·.drainWith l) :=
  runs_of_untouched (u := { s with answers := l }) hm rfl fun result log =>
    drainWith_settled (s := { s with result := result, log := log }) ho l

theorem runs_drainWith {s : State} (hm : s.mode = .exec) (l : List Answer) : s.Runs (·.drainWith l) := by
  induction l generalizing s with
  | nil => exact runs_of_untouched (u := { s with answers := [] }) (by simp [hm]) rfl fun _ _ => rfl
  | cons r rs ih =>
    cases ho : s.outstanding with
    | none => exact runs_settled (by simp [hm]) ho _
    | some xp =>
      obtain ⟨x, p⟩ := xp
      obtain ⟨u, es, hport, hes, hrun⟩ := runs_onAnswer hm x p r
      have hdrain : ∀ result log, State.drainWith { s with result := result, log := log } (r :: rs) =
          (u.after es result log).drainWith rs := fun result log =>
        (drainWith_outstanding (s := { s with result := result, log := log }) ho r rs).trans
          (congrArg (State.drainWith · rs) (hrun result log))
      by_cases hu : u.mode = .exec
      · refine runs_of_observed hes hport (ih hu) fun result log => (hdrain result log).trans ?_
        rw [after_of_not_idle (by simp [hu])]
      · refine ⟨{ u with answers := rs }, es, hport, hes, fun result log => (hdrain result log).trans ?_⟩
        rw [drainWith_settled (outstanding_none_of_mode (by simpa using hu)), after_answers]

theorem runs_busXact (s : State) (x : Xact) : s.Runs (·.busXact x) :=
  runs_drainWith (s := s.openXact x) rfl s.answers

theorem runs_headerRun (s : State) {run : State → State} (h : HeaderRun run) : s.Runs run := by
  cases h with
  | complete f hf => exact runs_complete s f
  | openBatch n hn => exact runs_of_untouched (u := s.openBatch n) (by simp [State.openBatch]) rfl fun _ _ => rfl
  | busXact x hx hc => exact runs_busXact s x

theorem runs_congr {s : State} {f g : State → State} (hg : s.Runs g)
    (h : ∀ result log, f { s with result := result, log := log } = g { s with result := result, log := log }) :
    s.Runs f := by
  obtain ⟨u, es, hport, hes, hrun⟩ := hg
  exact ⟨u, es, hport, hes, fun result log => (h result log).trans (hrun result log)⟩

theorem runs_entrySlot (s : State) (e : Option (Byte × Byte)) : s.Runs (·.entrySlot e) := by
  cases hf : s.batchFail with
  | some f => exact runs_congr (runs_endEntry s) fun result log =>
      entrySlot_discard (s := { s with result := result, log := log }) hf e
  | none =>
    match e with
    | none => exact runs_congr (runs_latch_endEntry s _ _ _) fun result log =>
        entrySlot_notEntry (s := { s with result := result, log := log }) hf
    | some (a, v) =>
      cases hc : channelOf a with
      | none => exact runs_congr (runs_latch_endEntry s _ _ _) fun result log =>
          entrySlot_badChannel (s := { s with result := result, log := log }) hf hc v
      | some ch => exact runs_congr (runs_busXact s _) fun result log =>
          entrySlot_level (s := { s with result := result, log := log }) hf hc v

/-- What a step that takes a word or starts in EXEC leaves behind it. -/
theorem step_adds {s t : State} (h : step s = .next t) (hacts : s.mode = .exec ∨ s.port ≠ []) :
    ∃ (u : State) (events : List Event), (∀ e ∈ events, e.OfTransport) ∧ t = u.after events s.result s.log := by
  obtain ⟨hm, hp, -⟩ | ⟨-, w, ws, run, -, hrun, rfl⟩ | ⟨-, w, ws, e, -, rfl⟩ | ⟨hm, -, -, -, rfl⟩ := step_by_mode h
  · exact absurd hacts (by simp [hm, hp])
  · obtain ⟨u, es, -, hes, heq⟩ := runs_headerRun { s with port := ws } hrun
    exact ⟨u, es, hes, heq s.result s.log⟩
  · obtain ⟨u, es, -, hes, heq⟩ := runs_entrySlot { s with port := ws } e
    exact ⟨u, es, hes, heq s.result s.log⟩
  · obtain ⟨u, es, -, hes, heq⟩ := runs_drainWith hm s.answers
    exact ⟨u, es, hes, heq s.result s.log⟩

theorem step_of_not_acts {s t : State} (h : step s = .next t) (hacts : ¬ (s.mode = .exec ∨ s.port ≠ [])) : t = s := by
  obtain ⟨hm, hp⟩ := not_or.mp hacts
  rw [step_of_port_nil ((cmdReady_iff_ne_exec s).mpr hm) (not_not.mp hp)] at h
  cases h
  rfl

/-! ### When a word is taken -/

theorem runs_port {s : State} {f : State → State} (h : s.Runs f) : (f s).port = s.port := by
  obtain ⟨u, es, hport, -, heq⟩ := h
  rw [show f s = u.after es s.result s.log from heq s.result s.log, after_port, hport]

theorem step_takes_word {s : State} (hr : s.cmdReady = true) : ∃ t, step s = .next t ∧ t.port = s.port.tail := by
  cases hp : s.port with
  | nil => exact ⟨s, step_of_port_nil hr hp, hp⟩
  | cons w ws =>
    obtain hm | hm := (cmdReady_iff s).mp hr
    · obtain ⟨run, hrun, hstep⟩ := step_header hm hp
      exact ⟨_, hstep, runs_port (runs_headerRun _ hrun)⟩
    · obtain ⟨e, hstep⟩ := step_slot hm hp
      exact ⟨_, hstep, runs_port (runs_entrySlot _ e)⟩

/-- Settles O7: a header and an entry slot start from the port without its first word, and a drain leaves the port. -/
theorem wordTakenOnlyWhenReady : Obligations.WordTakenOnlyWhenReady := by
  unfold Obligations.WordTakenOnlyWhenReady
  refine fun s => ⟨cmdReady_iff s, step_takes_word, fun hr t h => ?_⟩
  have hm : s.mode = .exec := not_not.mp fun hne => by simp [(cmdReady_iff_ne_exec s).mpr hne] at hr
  obtain ⟨hne, -⟩ | ⟨hi, -⟩ | ⟨hb, -⟩ | ⟨-, x, p, -, rfl⟩ := step_by_mode h
  · exact absurd hm hne
  · exact absurd hm (by simp [hi])
  · exact absurd hm (by simp [hb])
  · exact runs_port (runs_drainWith hm s.answers)

/-! ### When RESULT is written -/

/-- Settles O50: a step that acts leaves the block in IDLE with its RESULT write last, or elsewhere without one. -/
theorem oneResultPerCommand : Obligations.OneResultPerCommand := by
  unfold Obligations.OneResultPerCommand
  intro s t _ h
  by_cases hacts : s.mode = .exec ∨ s.port ≠ []
  · obtain ⟨u, es, hes, rfl⟩ := step_adds h hacts
    refine ⟨es, fun e he v hv => by subst hv; exact hes _ he, ?_, ?_⟩
    · rintro ⟨hidle, -⟩
      rw [after_of_idle (by simpa using hidle)]
    · intro hnot
      rw [after_of_not_idle fun hidle => hnot ⟨by simpa using hidle, hacts⟩]
      exact ⟨rfl, rfl⟩
  · refine ⟨[], by simp, fun hidle => absurd hidle.2 hacts, fun _ => ?_⟩
    rw [step_of_not_acts h hacts]
    simp

theorem sinceReset_append {es : List Event} (h : ∀ e ∈ es, e ≠ .reset) (log : List Event) :
    sinceReset (log ++ es) = sinceReset log ++ es := by
  unfold sinceReset
  rw [List.reverse_append, List.takeWhile_append_of_pos (by simpa using h), List.reverse_append, List.reverse_reverse]

theorem sinceReset_reset (log : List Event) : sinceReset (log ++ [.reset]) = [] := by simp [sinceReset]

/-- RESULT tells completion: its VALID bit is 0 exactly before the first RESULT write since reset. -/
def State.TellsCompletion (s : State) : Prop :=
  resultValid s.result = 0 ↔ ∀ v, Event.result v ∉ sinceReset s.log

theorem tellsCompletion_after {s u : State} {es : List Event} (h : s.TellsCompletion)
    (hes : ∀ e ∈ es, e.OfTransport) (hinv : (u.after es s.result s.log).Inv) :
    (u.after es s.result s.log).TellsCompletion := by
  have hreset : ∀ e ∈ es, e ≠ .reset := fun e he hv => by subst hv; exact hes _ he
  have hresult : ∀ v, Event.result v ∉ es := fun v hv => hes _ hv
  unfold State.TellsCompletion at h ⊢
  by_cases hidle : u.mode = .idle
  · rw [after_of_idle hidle] at hinv ⊢
    obtain ⟨hvalid, -⟩ : ResultLegal u.result := hinv.log (.result u.result) (by simp)
    have hin : Event.result u.result ∈ sinceReset (s.log ++ es ++ [.result u.result]) := by
      rw [sinceReset_append (es := [.result u.result]) (by simp)]
      simp
    simp only [hvalid]
    exact ⟨fun h1 => absurd h1 (by simp), fun hnone => absurd hin (hnone _)⟩
  · rw [after_of_not_idle hidle, sinceReset_append hreset]
    simpa [hresult] using h

/-- Settles O52, by induction on the run: a step adds at most one RESULT write and no reset, and a reset clears both. -/
theorem validTellsCompletion : Obligations.ValidTellsCompletion := by
  unfold Obligations.ValidTellsCompletion
  intro s hs
  change s.TellsCompletion
  induction hs with
  | reset => exact ⟨fun _ v => by simp [sinceReset, State.reset], fun _ => rfl⟩
  | @step s t hs h ih =>
    by_cases hacts : s.mode = .exec ∨ s.port ≠ []
    · have hinv := inv_of_reachable (.step hs h)
      obtain ⟨u, es, hes, rfl⟩ := step_adds h hacts
      exact tellsCompletion_after ih hes hinv
    · rw [step_of_not_acts h hacts]
      exact ih
  | @input s i hs ih =>
    cases i with
    | present w => exact ih
    | answer r => exact ih
    | reset =>
      refine ⟨fun _ v => ?_, fun _ => by simp [State.receive, State.applyReset, State.reset, resultValid]⟩
      rw [State.receive, State.applyReset, sinceReset_reset]
      simp

/-- Settles O53: which of the header runs a command is does not depend on the state, and each adds the same to any past. -/
theorem historyDoesNotMatter : Obligations.HistoryDoesNotMatter := by
  unfold Obligations.HistoryDoesNotMatter
  intro i s t result log hm hexec
  obtain ⟨run, hrun, hheader⟩ := exec_header i
  obtain ⟨u, es, -, -, heq⟩ := runs_headerRun s hrun
  have ht : t = u.after es s.result s.log := by
    rw [hheader s hm] at hexec
    cases hexec
    exact heq s.result s.log
  subst ht
  rw [hheader { s with result := result, log := log } hm, heq]
  by_cases hidle : u.mode = .idle
  · rw [after_of_idle hidle, after_of_idle hidle]
    exact ⟨es ++ [.result u.result], by simp, by simp [hidle]⟩
  · rw [after_of_not_idle hidle, after_of_not_idle hidle]
    exact ⟨es, rfl, by simp [hidle]⟩

/-! ### While a call has not returned -/

/-- A transaction whose call of phase `p` has no response (R25, R47). -/
theorem drainWith_drawsBefore (s : State) (x : Xact) (p : Phase) :
    (s.openXact x).drainWith (drawsBefore p) =
      { s with mode := .exec, xphase := some p, xact := some x, answers := [],
               log := s.log ++ eventsBefore s.busAddr x.bytes p } := by
  cases p <;>
    simp [drawsBefore, eventsBefore, State.drainWith, State.outstanding, State.openXact, State.onAnswer, State.record,
      Xact.callAt]

theorem busXact_waits {s : State} {p : Phase} (h : s.answers = drawsBefore p) (x : Xact) :
    s.busXact x =
      { s with mode := .exec, xphase := some p, xact := some x, answers := [],
               log := s.log ++ eventsBefore s.busAddr x.bytes p } := by
  have key := drainWith_drawsBefore s x p
  rw [← h] at key
  exact key

/-- `INIT` goes on to its second transaction when the first is whole (R131). -/
theorem busXact_modeWrite_ok {s : State} {rest : List Answer} (h : s.answers = drawsFor .ok ++ rest) (g : Byte) :
    s.busXact (modeWrite g) =
      (State.openXact
        { s with log := s.log ++ transactionEvents s.busAddr (modeWrite g).bytes .ok } (gainWrite g)).drainWith rest :=
  busXact_eq h

theorem exec_init_idle {s : State} (hm : s.mode = .idle) (c : Byte) :
    exec (.init c) s = .next (s.busXact (modeWrite (convertCurrentToGain c))) :=
  congrArg Host.Outcome.next (consumeHeader_idle hm _)

theorem exec_setChannel_idle {s : State} (hm : s.mode = .idle) {a : Byte} {ch : Channel} (hc : channelOf a = some ch)
    (v : Byte) : exec (.setChannel a v) s = .next (s.busXact (levelWrite ch v .setChannel)) := by
  simp only [exec, execSetChannel, consumeHeader_idle hm, hc]

theorem exec_entry_batch {s : State} (hm : s.mode = .batch) (a v : Byte) :
    exec (.entry a v) s = .next (s.entrySlot (some (a, v))) := by
  simp only [exec, execEntry, hm]

/-- Settles O28: the command of a valid channel is one transaction, which waits at the call of phase `p`. -/
theorem setChannelWaitsForEachCall : Obligations.SetChannelWaitsForEachCall := by
  unfold Obligations.SetChannelWaitsForEachCall
  intro a v s p hm ha hans
  have hc := channelOf_of_lt ha
  rw [exec_setChannel_idle hm hc, busXact_waits hans, (levelWrite_of_channelOf hc v _).1]
  rfl

/-- Settles O57: the slot of a valid entry with no failure latched is its transaction. -/
theorem entryWaitsForEachCall : Obligations.EntryWaitsForEachCall := by
  unfold Obligations.EntryWaitsForEachCall
  intro a v s p hm hf ha hans
  have hc := channelOf_of_lt ha
  rw [exec_entry_batch hm, entrySlot_level hf hc, busXact_waits hans, (levelWrite_of_channelOf hc v _).1]
  rfl

/-- Settles O56: in the first transaction it is the mode write that waits; after it the gain write is opened and waits. -/
theorem initWaitsForEachCall : Obligations.InitWaitsForEachCall := by
  unfold Obligations.InitWaitsForEachCall
  intro c s p hm
  rw [exec_init_idle hm]
  refine ⟨fun hans => ?_, fun hans => ?_⟩
  · rw [busXact_waits hans, modeWrite_eq]
    rfl
  · rw [busXact_modeWrite_ok hans, drainWith_drawsBefore, modeWrite_eq, gainWrite_eq]
    rfl

/-! ### A whole batch -/

theorem decode_encode_setChannels (n : Byte) : decode (encode (.setChannels n)) = .command (.setChannels n) := by
  have hsel : rowSetChannels.selects (encode (.setChannels n)) = true := Laws.EncodesItsRow.setChannels n rfl
  have hinit : ¬ rowInit.selects (encode (.setChannels n)) = true := by rw [rowInit_selects]; simp [encode]
  have hset : ¬ rowSetChannel.selects (encode (.setChannels n)) = true := by rw [rowSetChannel_selects]; simp [encode]
  rw [decode, if_neg hinit, if_neg hset, if_pos hsel]
  simp [encode]

/-- Three responses are enough for any transaction. -/
theorem exists_drawsFor {l : List Answer} (h : 3 ≤ l.length) :
    ∃ r rest, l = drawsFor r ++ rest ∧ l.length ≤ rest.length + 3 := by
  match l, h with
  | .failed :: l, _ => exact ⟨.fail .callBegin, l, rfl, by simp⟩
  | .accepted :: .failed :: l, _ => exact ⟨.fail .callWrite, l, rfl, by simp⟩
  | .accepted :: .accepted :: .failed :: l, _ => exact ⟨.fail .callEnd, l, rfl, by simp⟩
  | .accepted :: .accepted :: .accepted :: l, _ => exact ⟨.ok, l, rfl, by simp⟩

/-- An entry slot whose calls are all answered ends, whatever its word is, and takes at most three responses. -/
theorem entrySlot_ends {s : State} (h : 3 ≤ s.answers.length) (e : Option (Byte × Byte)) :
    ∃ (u : State) (f : Option BatchFail), s.entrySlot e = u.slotEnded f ∧ u.batchRem = s.batchRem ∧
      u.port = s.port ∧ s.answers.length ≤ u.answers.length + 3 := by
  obtain ⟨-, heq⟩ | ⟨-, c, -, heq⟩ | ⟨hf, a, v, ch, -, -, heq⟩ := entrySlot_cases s e
  · exact ⟨s, _, heq.trans (endEntry_eq s), rfl, rfl, by omega⟩
  · exact ⟨s, _, heq.trans (latch_endEntry s c none 0), rfl, rfl, by omega⟩
  · obtain ⟨r, rest, hans, hlen⟩ := exists_drawsFor h
    exact ⟨_, _, heq.trans (busXact_entry hans rfl hf), rfl, rfl, hlen⟩

theorem resultValid_batchResult (f : Option BatchFail) : resultValid (batchResult f) = 1 := by
  cases f <;> exact resultValid_pack _

theorem slotEnded_last {s : State} (h : s.batchRem = 1) (f : Option BatchFail) :
    s.slotEnded f =
      State.reported { s with batchRem := 0, batchIdx := 0, batchFail := none } (batchResult f) := if_pos h

theorem slotEnded_more {s : State} (h : s.batchRem ≠ 1) (f : Option BatchFail) :
    s.slotEnded f =
      { s with batchIdx := s.batchIdx + 1, batchRem := s.batchRem - 1, batchFail := f, mode := .batch } := if_neg h

/-- The block has completed a command and the next word is a header again. -/
def State.Completed (s : State) (more : List CmdWord) : Prop :=
  s.mode = .idle ∧ s.port = more ∧ resultValid s.result = 1

/-- A batch with all its words presented and its calls answered completes, a word a step. -/
theorem run_slots (words more : List CmdWord) {s : State} (hm : s.mode = .batch) (hne : words ≠ [])
    (hrem : s.batchRem.toNat = words.length) (hp : s.port = words ++ more)
    (hans : 3 * words.length ≤ s.answers.length) :
    ∃ t, Sys2Proof.core.run words.length s = .next t ∧ t.Completed more := by
  induction words generalizing s with
  | nil => exact absurd rfl hne
  | cons w ws ih =>
    simp only [List.length_cons] at hrem hans
    have hp' : s.port = w :: (ws ++ more) := hp
    obtain ⟨e, hstep⟩ := step_slot hm hp'
    obtain ⟨u, f, heq, hurem, huport, hulen⟩ := entrySlot_ends (s := { s with port := ws ++ more })
      (show 3 ≤ s.answers.length by omega) e
    simp only at hurem huport hulen
    rw [heq] at hstep
    rw [List.length_cons, run_succ hstep]
    cases ws with
    | nil =>
      have hlast : u.batchRem = 1 := BitVec.eq_of_toNat_eq (by rw [hurem, hrem]; rfl)
      rw [slotEnded_last hlast]
      exact ⟨_, run_zero _, rfl, huport, resultValid_batchResult f⟩
    | cons w' ws' =>
      simp only [List.length_cons] at hrem hans
      have hmore : u.batchRem ≠ 1 := fun h1 => by rw [← hurem, h1] at hrem; simp at hrem
      rw [slotEnded_more hmore]
      refine ih rfl (by simp) ?_ huport ?_
      · simp only [List.length_cons, hurem]; bv_omega
      · simp only [List.length_cons]; omega

/-- Settles O31: the header completes at once or opens a batch of `n` slots, and each slot takes one word. -/
theorem batchTakesExactlyItsWords : Obligations.BatchTakesExactlyItsWords := by
  unfold Obligations.BatchTakesExactlyItsWords
  intro s n words more hm hlen hp hfair
  have hp' : s.port = encode (.setChannels n) :: (words ++ more) := hp
  have hstep := step_of_command ((cmdReady_iff s).mpr (.inl hm)) hp' (decode_encode_setChannels n)
  simp only [exec, execSetChannels, consumeHeader_idle (s := { s with port := words ++ more }) hm] at hstep
  rw [run_succ hstep]
  by_cases hn : n = 0
  · subst hn
    obtain rfl : words = [] := List.eq_nil_of_length_eq_zero hlen
    exact ⟨_, run_zero _, rfl, rfl, resultValid_pack _⟩
  · have hpos : n.toNat ≠ 0 := fun h0 => hn (BitVec.eq_of_toNat_eq h0)
    have hne : words ≠ [] := fun h0 => hpos (by rw [← hlen, h0]; rfl)
    rw [if_neg hn, ← hlen]
    exact run_slots words more rfl hne hlen.symm rfl (by rw [hlen]; exact hfair)

end Sys2Proof.Machine

/-! # The chip register image (20_memory.md)

The statements of 20_memory.md: which bytes the block writes, what a committed and a failed transaction do to the image, and
what SET_CHANNEL and INIT leave in it. -/

namespace Sys2Proof.Machine

/-! ### The address byte -/

/-- An address byte below 128 is a single-register write (R43). -/
theorem addrByteAi_of_lt {b : Byte} (h : b.toNat < 128) : addrByteAi b = false :=
  Nat.testBit_lt_two_pow h

theorem addrByteReg_toNat (b : Byte) : (addrByteReg b).toNat = b.toNat % 128 := by simp [addrByteReg]

@[simp] theorem addrByteAi_append (f : BitVec 1) (a : RegAddr) : addrByteAi (f ++ a : BitVec 8) = f.getLsbD 0 :=
  BitVec.getLsbD_append

@[simp] theorem addrByteReg_append (f : BitVec 1) (a : RegAddr) : addrByteReg (f ++ a : BitVec 8) = a :=
  BitVec.setWidth_append_eq_right

/-- The address bytes of INIT's two transactions: block writes from MODE1 and from the first gain register (R132, R133). -/
theorem modeByte : addrByteAi 0x80#8 = true ∧ addrByteReg 0x80#8 = 0x00#7 := by decide

theorem gainByte : addrByteAi 0xA2#8 = true ∧ addrByteReg 0xA2#8 = 0x22#7 := by decide

/-- The address byte of a level write does not wrap (R101). -/
theorem levelByte_toNat {a : Byte} (h : a.toNat < 24) : (0x0A#8 + a).toNat = 0x0A + a.toNat := by bv_omega

/-! ### Which bytes are written -/

/-- Each of the byte lists of R83 has a shape of R45 and reaches only the registers of R42. -/
theorem issuedBytes_shape {bytes : List Byte} (h : IssuedBytes bytes) :
    ∃ (b : Byte) (payload : List Byte), bytes = b :: payload ∧
      (b.getLsbD 7 = false → payload.length = 1) ∧ (b.getLsbD 7 = true → 1 ≤ payload.length) ∧
      ∀ i : Nat, i < payload.length →
        (b.toNat % 128 + i = 0x00 ∨ (0x0A ≤ b.toNat % 128 + i ∧ b.toNat % 128 + i ≤ 0x39)) := by
  obtain rfl | ⟨g, rfl⟩ | ⟨ch, v, rfl⟩ := h
  · refine ⟨_, _, rfl, fun _ => rfl, fun _ => Nat.le_refl 1, fun i hi => ?_⟩
    obtain rfl : i = 0 := Nat.lt_one_iff.mp hi
    exact .inl rfl
  · have hai : (0xA2#8).getLsbD 7 = true := gainByte.1
    have hreg : (0xA2#8).toNat % 128 = 0x22 := rfl
    refine ⟨_, _, rfl, fun h => absurd (hai.symm.trans h) (by decide), fun _ => by simp, fun i hi => ?_⟩
    rw [List.length_replicate] at hi
    exact .inr (by omega)
  · have hch : (BitVec.ofNat 8 ch.val).toNat = ch.val := by simp; omega
    have hlevel := levelByte_toNat (a := BitVec.ofNat 8 ch.val) (by omega)
    refine ⟨_, _, rfl, fun _ => rfl, fun _ => Nat.le_refl 1, fun i hi => ?_⟩
    obtain rfl : i = 0 := Nat.lt_one_iff.mp hi
    exact .inr (by omega)

/-- Settles O48: everything observed in a reachable state is legal, so every byte list written is one of R83. -/
theorem onlyNamedRegistersWritten : Obligations.OnlyNamedRegistersWritten := by
  unfold Obligations.OnlyNamedRegistersWritten
  intro s bytes r h hcall
  have hissued : IssuedBytes bytes := (inv_of_reachable h).log _ hcall
  exact issuedBytes_shape hissued

/-! ### One transaction in the image -/

/-- `IMG[a] <- Known(v)` at the register of an address byte, which is always inside the register space (R40, R43). -/
theorem Memory.read_write_register (m : Memory) (a : RegAddr) (v : Byte) (x : Nat) :
    (m.write a.toNat v).read x = if x = a.toNat then some v else m.read x := by
  split
  next h => rw [h]; exact read_write_same m v a.isLt
  next h => exact read_write_other m v h

/-- `IMG[a] <- Unknown` (R56). -/
theorem Memory.read_forget (m : Memory) (a x : Nat) : (m.forget a).read x = if x = a then none else m.read x := by
  split
  next h => rw [h]; exact read_forget_same m a
  next h => exact read_forget_other m h

/-- The two shapes of R45 in the image, after OK (R55) and after a failure (R56). -/
theorem Memory.commit_single (m : Memory) {b : Byte} (h : addrByteAi b = false) (v : Byte) :
    m.commit b [v] = m.write (addrByteReg b).toNat v := by simp only [commit, h]

theorem Memory.commit_block (m : Memory) {b : Byte} (h : addrByteAi b = true) (v : Byte) (vs : List Byte) :
    m.commit b (v :: vs) = (m.write (addrByteReg b).toNat v).blockTail ((addrByteReg b).toNat + 1) vs := by
  simp only [commit, h]

theorem Memory.spoil_single (m : Memory) {b : Byte} (h : addrByteAi b = false) (v : Byte) :
    m.spoil b [v] = m.forget (addrByteReg b).toNat := by simp only [spoil, h]

theorem Memory.spoil_block (m : Memory) {b : Byte} (h : addrByteAi b = true) (v : Byte) (vs : List Byte) :
    m.spoil b (v :: vs) = m.forgetFrom (addrByteReg b).toNat (v :: vs).length := by simp only [spoil, h]

/-- A committed single-register write, read at every address (R55). -/
theorem Memory.read_commit_single (m : Memory) {b : Byte} (h : addrByteAi b = false) (v : Byte) (x : Nat) :
    (m.commit b [v]).read x = if x = (addrByteReg b).toNat then some v else m.read x := by
  rw [commit_single m h, read_write_register]

/-- A committed block write, read at every address: the first register is written before the scope of the others is looked
at, so a write that starts at MODE1 sets its own scope (R55). -/
theorem Memory.read_commit_block (m : Memory) {b : Byte} (h : addrByteAi b = true) {a : RegAddr} (ha : addrByteReg b = a)
    (v : Byte) (vs : List Byte) (x : Nat) :
    (m.commit b (v :: vs)).read x =
      if x = a.toNat then some v
      else if a.toNat < x ∧ x ≤ a.toNat + vs.length then
        if x ≤ 0x39 ∧ (if a = 0 then some v else m.read 0) = some Config.mode1AiAll then vs[x - a.toNat - 1]? else none
      else m.read x := by
  have hscope : (m.write a.toNat v).read 0 = if a = 0 then some v else m.read 0 := by
    rw [read_write_register]
    exact if_congr (by rw [eq_comm]; exact (BitVec.toNat_inj (y := 0#7))) rfl rfl
  have htail : (a.toNat + 1 ≤ x ∧ x < a.toNat + 1 + vs.length) ↔ (a.toNat < x ∧ x ≤ a.toNat + vs.length) := by omega
  rw [commit_block m h, ha, read_blockTail vs _ x (Nat.succ_pos _), hscope, read_write_register, if_congr htail rfl rfl]
  by_cases hx : x = a.toNat
  · rw [if_pos hx, if_pos hx, if_neg (by omega)]
  · rw [if_neg hx, if_neg hx, Nat.succ_eq_add_one, Nat.sub_add_eq]

/-- A failed single-register write, read at every address (R56). -/
theorem Memory.read_spoil_single (m : Memory) {b : Byte} (h : addrByteAi b = false) (v : Byte) (x : Nat) :
    (m.spoil b [v]).read x = if x = (addrByteReg b).toNat then none else m.read x := by
  rw [spoil_single m h, read_forget]

/-- A failed block write, read at every address (R56). -/
theorem Memory.read_spoil_block (m : Memory) {b : Byte} (h : addrByteAi b = true) {a : RegAddr} (ha : addrByteReg b = a)
    (v : Byte) (vs : List Byte) (x : Nat) :
    (m.spoil b (v :: vs)).read x = if a.toNat ≤ x ∧ x ≤ a.toNat + vs.length then none else m.read x := by
  have hrange : (a.toNat ≤ x ∧ x < a.toNat + (v :: vs).length) ↔ (a.toNat ≤ x ∧ x ≤ a.toNat + vs.length) := by
    rw [List.length_cons]; omega
  rw [spoil_block m h, ha, read_forgetFrom, if_congr hrange rfl rfl]

/-- Settles O36: a committed transaction is a single write or a block write, and each keeps the canonical form. -/
theorem committedTransactionInImage : Obligations.CommittedTransactionInImage := by
  unfold Obligations.CommittedTransactionInImage
  refine ⟨fun _ => rfl, fun m a v x _ => ?_, fun m a v vs x hwf => ⟨Memory.wf_observe hwf _, ?_⟩⟩
  · have key := m.read_commit_single (addrByteAi_append 0#1 a) v x
    rwa [addrByteReg_append] at key
  · exact m.read_commit_block (addrByteAi_append 1#1 a) (addrByteReg_append 1#1 a) v vs x

/-- Settles O37: the phase of the failure makes no difference to the image. -/
theorem failedTransactionInImage : Obligations.FailedTransactionInImage := by
  unfold Obligations.FailedTransactionInImage
  intro m a v vs p x _
  refine ⟨?_, m.read_spoil_block (addrByteAi_append 1#1 a) (addrByteReg_append 1#1 a) v vs x⟩
  have key := m.read_spoil_single (addrByteAi_append 0#1 a) v x
  rwa [addrByteReg_append] at key

/-! ### The transactions of the commands in the image -/

/-- Of what is observed of a transaction only its return changes the image. -/
theorem imageOf_transactionEvents (log : List Event) (addr : BusAddr) (bytes : List Byte) (r : XactResult) :
    imageOf (log ++ transactionEvents addr bytes r) = (imageOf log).observe (.xact bytes r) := by
  rw [imageOf_append]
  cases r with
  | ok => rfl
  | fail p => cases p <;> rfl

/-- A completed command's RESULT write does not change the image. -/
@[simp] theorem img_reported (s : State) (v : BitVec 32) (x : Nat) : (s.reported v).img x = s.img x := by
  simp [State.img, State.image, State.reported, imageOf_append]

/-- The mode write after OK (R55, R132). -/
theorem Memory.read_modeWrite_ok (m : Memory) (g : Byte) (x : Nat) :
    (m.observe (.xact (modeWrite g).bytes .ok)).read x = if x = 0 then some Config.mode1AiAll else m.read x := by
  rw [modeWrite_eq]
  obtain ⟨hai, hreg⟩ := modeByte
  refine (m.read_commit_block hai hreg Config.mode1AiAll [] x).trans (if_congr Iff.rfl rfl (if_neg ?_))
  exact fun h => Nat.lt_irrefl _ (h.1.trans_le h.2)

/-- The mode write after a failure (R52, R56). -/
theorem Memory.read_modeWrite_fail (m : Memory) (g : Byte) (p : Phase) (x : Nat) :
    (m.observe (.xact (modeWrite g).bytes (.fail p))).read x = if x = 0 then none else m.read x := by
  rw [modeWrite_eq]
  obtain ⟨hai, hreg⟩ := modeByte
  refine (m.read_spoil_block hai hreg Config.mode1AiAll [] x).trans (if_congr ?_ rfl rfl)
  simp

/-- The gain write after OK, with the mode pattern known: the auto-increment scope covers all 24 registers (R55, R133). -/
theorem Memory.read_gainWrite_ok {m : Memory} (h : m.read 0 = some Config.mode1AiAll) (g : Byte) (x : Nat) :
    (m.observe (.xact (gainWrite g).bytes .ok)).read x = if 0x22 ≤ x ∧ x ≤ 0x39 then some g else m.read x := by
  rw [gainWrite_eq]
  obtain ⟨hai, hreg⟩ := gainByte
  have hne : ¬ (0x22#7 : RegAddr) = 0 := by decide
  have hnat : (0x22#7).toNat = 0x22 := rfl
  refine (m.read_commit_block hai hreg g (List.replicate 23 g) x).trans ?_
  simp only [hnat, if_neg hne, h, and_true, List.length_replicate, List.getElem?_replicate]
  by_cases hx : 0x22 ≤ x ∧ x ≤ 0x39
  · rw [if_pos hx]
    by_cases hfirst : x = 0x22
    · rw [if_pos hfirst]
    · rw [if_neg hfirst, if_pos (by omega), if_pos hx.2, if_pos (by omega)]
  · rw [if_neg hx, if_neg (by omega), if_neg (by omega)]

/-- The gain write after a failure (R52, R56). -/
theorem Memory.read_gainWrite_fail (m : Memory) (g : Byte) (p : Phase) (x : Nat) :
    (m.observe (.xact (gainWrite g).bytes (.fail p))).read x = if 0x22 ≤ x ∧ x ≤ 0x39 then none else m.read x := by
  rw [gainWrite_eq]
  obtain ⟨hai, hreg⟩ := gainByte
  exact m.read_spoil_block hai hreg g (List.replicate 23 g) x

/-- The write of one level reads back as its outcome leaves it (R55, R56, R140). -/
theorem Memory.read_level (m : Memory) {a : Byte} (h : a.toNat < 24) (v : Byte) (r : XactResult) :
    (m.observe (.xact [0x0A#8 + a, v] r)).read (0x0A + a.toNat) = (match r with | .ok => some v | .fail _ => none) := by
  have hbyte := levelByte_toNat h
  have hai : addrByteAi (0x0A#8 + a) = false := addrByteAi_of_lt (by omega)
  have hreg : 0x0A + a.toNat = (addrByteReg (0x0A#8 + a)).toNat := by rw [addrByteReg_toNat]; omega
  cases r with
  | ok => exact (m.read_commit_single hai v _).trans (if_pos hreg)
  | fail p => exact (m.read_spoil_single hai v _).trans (if_pos hreg)

/-- Settles O38: the command is one transaction, and its RESULT write leaves the image. -/
theorem setChannelImage : Obligations.SetChannelImage := by
  unfold Obligations.SetChannelImage
  intro a v s r rest hm ha hans
  have hc := channelOf_of_lt ha
  refine ⟨_, exec_setChannel_idle hm hc v, ?_⟩
  rw [busXact_setChannel hans rfl, img_reported, State.img, State.image, imageOf_transactionEvents,
    (levelWrite_of_channelOf hc v _).1]
  exact Memory.read_level _ ha v r

/-! ### INIT -/

/-- A failed mode write ends `INIT` (R131, R134). -/
theorem busXact_modeWrite_fail {s : State} {p : Phase} {rest : List Answer} (h : s.answers = drawsFor (.fail p) ++ rest)
    (g : Byte) :
    s.busXact (modeWrite g) = State.reported
      { s with xphase := none, xact := none, answers := rest,
               log := s.log ++ transactionEvents s.busAddr (modeWrite g).bytes (.fail p) }
      (transactionReport (modeWrite g).regaddr (.fail p)) := by
  rw [busXact_eq h]
  exact drainWith_reported _ _ rest

/-- After the mode write the outcome of the gain write ends `INIT` (R131, R133, R134). -/
theorem busXact_modeWrite_gainWrite {s : State} {r : XactResult} {rest : List Answer}
    (h : s.answers = drawsFor .ok ++ (drawsFor r ++ rest)) (g : Byte) :
    s.busXact (modeWrite g) = State.reported
      { s with xphase := none, xact := none, answers := rest,
               log := s.log ++ transactionEvents s.busAddr (modeWrite g).bytes .ok ++
                 transactionEvents s.busAddr (gainWrite g).bytes r }
      (transactionReport (gainWrite g).regaddr r) := by
  rw [busXact_modeWrite_ok h, drainWith_transaction]
  cases r with
  | ok => exact drainWith_reported _ _ rest
  | fail p => exact drainWith_reported _ _ rest

/-- Settles O40: a failed mode write ends INIT with MODE1 spoiled; a failed gain write leaves the mode write committed. -/
theorem failedInitImage : Obligations.FailedInitImage := by
  unfold Obligations.FailedInitImage
  intro c s p rest i hm hi
  refine ⟨fun hans => ⟨_, exec_init_idle hm c, ?_⟩, fun hans => ⟨_, exec_init_idle hm c, ?_⟩⟩
  · rw [busXact_modeWrite_fail hans]
    simp only [img_reported]
    simp only [State.img, State.image, imageOf_transactionEvents, Memory.read_modeWrite_fail]
    exact ⟨rfl, if_neg (by omega)⟩
  · rw [busXact_modeWrite_gainWrite hans]
    simp only [img_reported]
    simp only [State.img, State.image, imageOf_transactionEvents, Memory.read_gainWrite_fail, Memory.read_modeWrite_ok]
    exact ⟨rfl, if_pos (by omega)⟩

/-- What an `INIT` whose calls are all accepted adds to the observation (R131 to R133). -/
def initEvents (addr : BusAddr) (g : Byte) : List Event :=
  transactionEvents addr (modeWrite g).bytes .ok ++ transactionEvents addr (gainWrite g).bytes .ok ++
    [.result (transactionReport (gainWrite g).regaddr .ok)]

/-- The image after such an `INIT`: MODE1 and the 24 gain registers are known, every other address is as before (R135). -/
theorem read_imageOf_initEvents (log : List Event) (addr : BusAddr) (g : Byte) (x : Nat) :
    (imageOf (log ++ initEvents addr g)).read x =
      if 0x22 ≤ x ∧ x ≤ 0x39 then some g else if x = 0 then some Config.mode1AiAll else (imageOf log).read x := by
  have himage : imageOf (log ++ initEvents addr g) =
      ((imageOf log).observe (.xact (modeWrite g).bytes .ok)).observe (.xact (gainWrite g).bytes .ok) := by
    simp only [initEvents, ← List.append_assoc]
    rw [imageOf_append, imageOf_transactionEvents, imageOf_transactionEvents]
    rfl
  have hmode := Memory.read_modeWrite_ok (imageOf log) g
  rw [himage, Memory.read_gainWrite_ok (hmode 0), hmode]

/-- An `INIT` consumed in IDLE with every call accepted: the whole state it leaves. -/
theorem exec_init_accepted {s : State} {c : Byte} {rest : List Answer} (hm : s.mode = .idle)
    (hans : s.answers = List.replicate 6 .accepted ++ rest) :
    exec (.init c) s = .next
      { s with mode := .idle, xphase := none, xact := none, answers := rest,
               result := transactionReport (gainWrite (convertCurrentToGain c)).regaddr .ok,
               log := s.log ++ initEvents s.busAddr (convertCurrentToGain c) } := by
  rw [exec_init_idle hm, busXact_modeWrite_gainWrite (r := .ok) hans]
  simp only [State.reported, initEvents, List.append_assoc]

/-- Settles O41: both runs add `initEvents`, after which the image no longer depends on what stood in its registers. -/
theorem initAgainLeavesSameImage : Obligations.InitAgainLeavesSameImage := by
  unfold Obligations.InitAgainLeavesSameImage
  intro c s t u rest hm hans hfirst hagain
  have hsplit : s.answers = List.replicate 6 .accepted ++ (List.replicate 6 .accepted ++ rest) := hans
  rw [exec_init_accepted hm hsplit] at hfirst
  cases hfirst
  rw [exec_init_accepted rfl rfl] at hagain
  cases hagain
  refine ⟨⟨initEvents s.busAddr (convertCurrentToGain c), rfl, rfl⟩, rfl, fun x => ?_⟩
  simp only [State.img, State.image, read_imageOf_initEvents]
  split
  · rfl
  · split <;> rfl

end Sys2Proof.Machine

/-! # The command words (30_encoding.md)

The statements of 30_encoding.md: decoding and encoding are inverse, the opcode map's rows are disjoint, which words are
illegal and what they do, a word in an entry slot, and the words of an assembly line. -/

namespace Sys2Proof

/-! ### The rows of the opcode map -/

theorem row_mem_opcodeMap (i : Instr) : i.row ∈ opcodeMap := by cases i <;> simp [opcodeMap, Instr.row]

/-- The rows of the map are those of the commands (R73). -/
theorem mem_opcodeMap_iff {r : Row} : r ∈ opcodeMap ↔ ∃ i : Instr, i.row = r := by
  constructor
  · intro h
    simp only [opcodeMap, List.mem_cons, List.not_mem_nil, or_false] at h
    obtain rfl | rfl | rfl | rfl | rfl | rfl | rfl | rfl := h
    · exact ⟨.init 0, rfl⟩
    · exact ⟨.setChannel 0 0, rfl⟩
    · exact ⟨.setChannels 0, rfl⟩
    · exact ⟨.entry 0 0, rfl⟩
    · exact ⟨.qPwmReg 0, rfl⟩
    · exact ⟨.qGainReg 0, rfl⟩
    · exact ⟨.qWithAi 0, rfl⟩
    · exact ⟨.qGainCode 0, rfl⟩
  · rintro ⟨i, rfl⟩
    exact row_mem_opcodeMap i

/-- Every mask covers `OP`, so a word has the `OP` of a row it selects (R79). -/
theorem fieldOp_of_selects {r : Row} {w : CmdWord} (hr : r ∈ opcodeMap) (h : r.selects w = true) :
    fieldOp w = fieldOp r.pattern := by
  have hmask : ∀ r ∈ opcodeMap, fieldOp r.mask = 0xF#4 := by decide
  have hpattern : w &&& r.mask = r.pattern := beq_iff_eq.mp h
  have hand : fieldOp (w &&& r.mask) = fieldOp w &&& fieldOp r.mask := BitVec.extractLsb'_and
  rw [← hpattern, hand, hmask r hr, and_ones4]

/-- No two rows have the same `OP`, so a word selects at most one row (R79). -/
theorem row_unique {r r' : Row} {w : CmdWord} (hr : r ∈ opcodeMap) (hr' : r' ∈ opcodeMap) (h : r.selects w = true)
    (h' : r'.selects w = true) : r = r' := by
  have hop : ∀ r ∈ opcodeMap, ∀ r' ∈ opcodeMap, fieldOp r.pattern = fieldOp r'.pattern → r = r' := by decide
  exact hop r hr r' hr' ((fieldOp_of_selects hr h).symm.trans (fieldOp_of_selects hr' h'))

theorem selects_eq_beq_row {i : Instr} {w : CmdWord} (h : i.row.selects w = true) {r : Row} (hr : r ∈ opcodeMap) :
    r.selects w = (r == i.row) := by
  by_cases hri : r = i.row
  · rw [hri, h, beq_self_eq_true]
  · rw [beq_false_of_ne hri]
    exact Bool.eq_false_iff.mpr fun hw => hri (row_unique hr (row_mem_opcodeMap i) hw h)

/-! ### The command a word stands for -/

/-- The command of the same row with the operands of `w` (R72, R73). -/
def Instr.withOperandsOf (w : CmdWord) : Instr → Instr
  | .init _ => .init (fieldB w)
  | .setChannel _ _ => .setChannel (fieldA w) (fieldB w)
  | .setChannels _ => .setChannels (fieldA w)
  | .entry _ _ => .entry (fieldA w) (fieldB w)
  | .qPwmReg _ => .qPwmReg (fieldA w)
  | .qGainReg _ => .qGainReg (fieldA w)
  | .qWithAi _ => .qWithAi (fieldA w)
  | .qGainCode _ => .qGainCode (fieldB w)

@[simp] theorem row_withOperandsOf (w : CmdWord) (i : Instr) : (i.withOperandsOf w).row = i.row := by cases i <;> rfl

@[simp] theorem withOperandsOf_encode (i : Instr) : i.withOperandsOf (encode i) = i := by
  cases i <;> simp [Instr.withOperandsOf, encode]

/-- A word with these fields and `RSVD = 0` (R71). -/
theorem wordOf_eq {w : CmdWord} {op : BitVec 4} {a b : Byte} (ho : fieldOp w = op) (hr : fieldRsvd w = 0#12)
    (ha : fieldA w = a) (hb : fieldB w = b) : wordOf op a b = w :=
  word_ext (by simp [ho]) (by simp [hr]) (by simp [ha]) (by simp [hb])

/-- A word that selects a command's row is one of that command's words, with its operands in place. -/
theorem encode_withOperandsOf {i : Instr} {w : CmdWord} (h : i.row.selects w = true) :
    encode (i.withOperandsOf w) = w := by
  cases i with
  | init c => obtain ⟨ho, hr, ha⟩ := (rowInit_selects w).mp h; exact wordOf_eq ho hr ha rfl
  | setChannel ch v => obtain ⟨ho, hr⟩ := (rowSetChannel_selects w).mp h; exact wordOf_eq ho hr rfl rfl
  | setChannels n => obtain ⟨ho, hr, hb⟩ := (rowSetChannels_selects w).mp h; exact wordOf_eq ho hr rfl hb
  | entry ch v => obtain ⟨ho, hr⟩ := (rowEntry_selects w).mp h; exact wordOf_eq ho hr rfl rfl
  | qPwmReg ch => obtain ⟨ho, hr, hb⟩ := (rowQPwmReg_selects w).mp h; exact wordOf_eq ho hr rfl hb
  | qGainReg ch => obtain ⟨ho, hr, hb⟩ := (rowQGainReg_selects w).mp h; exact wordOf_eq ho hr rfl hb
  | qWithAi a => obtain ⟨ho, hr, -, hb⟩ := (rowQWithAi_selects w).mp h; exact wordOf_eq ho hr rfl hb
  | qGainCode c => obtain ⟨ho, hr, ha⟩ := (rowQGainCode_selects w).mp h; exact wordOf_eq ho hr ha rfl

theorem wellFormed_qWithAi_iff {a : Byte} : (Instr.qWithAi a).WellFormed ↔ a.toNat < 128 := decide_eq_true_iff

/-- Only the row of `Q_WITH_AI` has an operand bit that must be 0 (R109). -/
theorem wellFormed_withOperandsOf {i : Instr} {w : CmdWord} (h : i.row.selects w = true) :
    (i.withOperandsOf w).WellFormed := by
  cases i with
  | qWithAi a =>
    obtain ⟨-, -, ha, -⟩ := (rowQWithAi_selects w).mp h
    exact wellFormed_qWithAi_iff.mpr ha
  | init | setChannel | setChannels | entry | qPwmReg | qGainReg | qGainCode => rfl

/-! ### Decoding and encoding -/

/-- A word decodes to the command of the row it selects, with the word's operands (R79). -/
theorem decode_of_selects {i : Instr} {w : CmdWord} (h : i.row.selects w = true) :
    decode w = .command (i.withOperandsOf w) := by
  have hrows : ∀ r ∈ opcodeMap, r.selects w = (r == i.row) := fun _ => selects_eq_beq_row h
  simp only [opcodeMap, List.forall_mem_cons] at hrows
  obtain ⟨hInit, hSetChannel, hSetChannels, hEntry, hQPwmReg, hQGainReg, hQWithAi, hQGainCode, -⟩ := hrows
  rw [decode, hInit, hSetChannel, hSetChannels, hEntry, hQPwmReg, hQGainReg, hQWithAi, hQGainCode]
  cases i <;> rfl

theorem decode_of_no_row {w : CmdWord} (h : ∀ r ∈ opcodeMap, r.selects w = false) :
    decode w = .illegal (illegalReason w) := by
  simp only [opcodeMap, List.forall_mem_cons] at h
  obtain ⟨hInit, hSetChannel, hSetChannels, hEntry, hQPwmReg, hQGainReg, hQWithAi, hQGainCode, -⟩ := h
  rw [decode, hInit, hSetChannel, hSetChannels, hEntry, hQPwmReg, hQGainReg, hQWithAi, hQGainCode]
  rfl

theorem selects_or_no_row (w : CmdWord) :
    (∃ i : Instr, i.row.selects w = true) ∨ ∀ r ∈ opcodeMap, r.selects w = false := by
  by_cases h : ∃ i : Instr, i.row.selects w = true
  · exact .inl h
  · refine .inr fun r hr => Bool.eq_false_iff.mpr fun hw => h ?_
    obtain ⟨i, rfl⟩ := mem_opcodeMap_iff.mp hr
    exact ⟨i, hw⟩

/-- A decoded command is of the row its word selects and has the word's operands (R79). -/
theorem selects_of_decode {w : CmdWord} {i : Instr} (h : decode w = .command i) :
    i.row.selects w = true ∧ i.withOperandsOf w = i := by
  obtain ⟨j, hj⟩ | hnone := selects_or_no_row w
  · rw [decode_of_selects hj] at h
    cases h
    exact ⟨by rwa [row_withOperandsOf], by cases j <;> rfl⟩
  · rw [decode_of_no_row hnone] at h
    cases h

theorem decode_illegal_iff (w : CmdWord) :
    (∃ why, decode w = .illegal why) ↔ ∀ r ∈ opcodeMap, r.selects w = false := by
  refine ⟨fun ⟨why, hwhy⟩ => ?_, fun h => ⟨_, decode_of_no_row h⟩⟩
  obtain ⟨i, hi⟩ | hnone := selects_or_no_row w
  · rw [decode_of_selects hi] at hwhy
    cases hwhy
  · exact hnone

theorem selects_encode {i : Instr} (h : i.WellFormed) : i.row.selects (encode i) = true := by
  cases i with
  | init c => exact Laws.EncodesItsRow.init c h
  | setChannel ch v => exact Laws.EncodesItsRow.setChannel ch v h
  | setChannels n => exact Laws.EncodesItsRow.setChannels n h
  | entry ch v => exact Laws.EncodesItsRow.entry ch v h
  | qPwmReg ch => exact Laws.EncodesItsRow.qPwmReg ch h
  | qGainReg ch => exact Laws.EncodesItsRow.qGainReg ch h
  | qWithAi a => exact Laws.EncodesItsRow.qWithAi a h
  | qGainCode c => exact Laws.EncodesItsRow.qGainCode c h

/-- Settles O1: the word selects the command's row, and its fields are the command's operands. -/
theorem decodeInvertsEncode : Obligations.DecodeInvertsEncode := by
  unfold Obligations.DecodeInvertsEncode
  intro i h
  rw [decode_of_selects (selects_encode h), withOperandsOf_encode]

/-- Settles O2: the command has the operands of the word, and the word selects its row. -/
theorem decodedWordIsItsEncoding : Obligations.DecodedWordIsItsEncoding := by
  unfold Obligations.DecodedWordIsItsEncoding
  intro w i h
  obtain ⟨hsel, hi⟩ := selects_of_decode h
  have hencode := encode_withOperandsOf hsel
  have hwf := wellFormed_withOperandsOf hsel
  rw [hi] at hencode hwf
  exact ⟨hencode, hwf⟩

/-- Settles O3: the rows differ in `OP`, which every mask covers. -/
theorem decodeReturnsTheUniqueRow : Obligations.DecodeReturnsTheUniqueRow := by
  unfold Obligations.DecodeReturnsTheUniqueRow
  intro w
  refine ⟨fun i h => ?_, decode_illegal_iff w⟩
  obtain ⟨hsel, -⟩ := selects_of_decode h
  have hmem := row_mem_opcodeMap i
  exact ⟨hmem, hsel, fun r hr hr' => row_unique hr hmem hr' hsel⟩

theorem decode_of_encode {i : Instr} {w : CmdWord} (h : i.WellFormed) (hw : encode i = w) : decode w = .command i :=
  hw ▸ decodeInvertsEncode i h

/-- Settles O4: each word is the encoding of its command. -/
theorem specWordsDecode : Obligations.SpecWordsDecode := by
  unfold Obligations.SpecWordsDecode
  refine ⟨decode_of_encode rfl ?_, decode_of_encode rfl ?_, decode_of_encode rfl ?_, decode_of_encode rfl ?_,
    decode_of_encode rfl ?_, decode_of_encode rfl ?_, decode_of_encode rfl ?_,
    decode_of_encode rfl ?_⟩ <;> decide

end Sys2Proof

namespace Sys2Proof.Machine

/-! ### The illegal words -/

/-- A word that selects a row is of none of the kinds of R81. -/
theorem not_illegalHeader_of_selects {i : Instr} {w : CmdWord} (h : i.row.selects w = true) :
    ¬ IllegalHeader w := by
  cases i with
  | init c => obtain ⟨ho, hr, ha⟩ := (rowInit_selects w).mp h; simp [IllegalHeader, ho, hr, ha]
  | setChannel ch v => obtain ⟨ho, hr⟩ := (rowSetChannel_selects w).mp h; simp [IllegalHeader, ho, hr]
  | setChannels n => obtain ⟨ho, hr, hb⟩ := (rowSetChannels_selects w).mp h; simp [IllegalHeader, ho, hr, hb]
  | entry ch v => obtain ⟨ho, hr⟩ := (rowEntry_selects w).mp h; simp [IllegalHeader, ho, hr]
  | qPwmReg ch => obtain ⟨ho, hr, hb⟩ := (rowQPwmReg_selects w).mp h; simp [IllegalHeader, ho, hr, hb]
  | qGainReg ch => obtain ⟨ho, hr, hb⟩ := (rowQGainReg_selects w).mp h; simp [IllegalHeader, ho, hr, hb]
  | qWithAi a => obtain ⟨ho, hr, ha, hb⟩ := (rowQWithAi_selects w).mp h; simp [IllegalHeader, ho, hr, ha, hb]
  | qGainCode c => obtain ⟨ho, hr, ha⟩ := (rowQGainCode_selects w).mp h; simp [IllegalHeader, ho, hr, ha]

/-- A word of none of the kinds of R81 has an assigned `OP` and meets the other conditions of that row. -/
theorem selects_of_not_illegalHeader {w : CmdWord} (h : ¬ IllegalHeader w) :
    ∃ i : Instr, i.row.selects w = true := by
  have hassigned : ∀ op : BitVec 4, op ∉ [0x0#4, 0x5#4, 0x6#4, 0x7#4, 0xC#4, 0xD#4, 0xE#4, 0xF#4] →
      op ∈ [0x1#4, 0x2#4, 0x3#4, 0x4#4, 0x8#4, 0x9#4, 0xA#4, 0xB#4] := by decide
  simp only [IllegalHeader, not_or, not_and, not_not, not_le] at h
  obtain ⟨hop, hr, ha, hb, hai⟩ := h
  have hop' := hassigned _ hop
  simp only [List.mem_cons, List.not_mem_nil, or_false] at hop' ha hb
  obtain ho | ho | ho | ho | ho | ho | ho | ho := hop'
  · exact ⟨.init 0, (rowInit_selects w).mpr ⟨ho, hr, ha (.inl ho)⟩⟩
  · exact ⟨.setChannel 0 0, (rowSetChannel_selects w).mpr ⟨ho, hr⟩⟩
  · exact ⟨.setChannels 0, (rowSetChannels_selects w).mpr ⟨ho, hr, hb (.inl ho)⟩⟩
  · exact ⟨.entry 0 0, (rowEntry_selects w).mpr ⟨ho, hr⟩⟩
  · exact ⟨.qPwmReg 0, (rowQPwmReg_selects w).mpr ⟨ho, hr, hb (.inr (.inl ho))⟩⟩
  · exact ⟨.qGainReg 0, (rowQGainReg_selects w).mpr ⟨ho, hr, hb (.inr (.inr (.inl ho)))⟩⟩
  · exact ⟨.qWithAi 0, (rowQWithAi_selects w).mpr ⟨ho, hr, hai ho, hb (.inr (.inr (.inr ho)))⟩⟩
  · exact ⟨.qGainCode 0, (rowQGainCode_selects w).mpr ⟨ho, hr, ha (.inr ho)⟩⟩

theorem illegalHeader_iff_decode (w : CmdWord) : IllegalHeader w ↔ ∃ why, decode w = .illegal why := by
  rw [decode_illegal_iff]
  constructor
  · intro h r hr
    obtain ⟨i, rfl⟩ := mem_opcodeMap_iff.mp hr
    exact Bool.eq_false_iff.mpr fun hw => not_illegalHeader_of_selects hw h
  · intro hnone
    by_contra h
    obtain ⟨i, hi⟩ := selects_of_not_illegalHeader h
    exact Bool.eq_false_iff.mp (hnone i.row (row_mem_opcodeMap i)) hi

/-! ### Consuming a word -/

theorem exec_entry_idle {s : State} (hm : s.mode = .idle) (a v : Byte) :
    exec (.entry a v) s = .next (s.raise .illegalCommand) := by
  simp only [exec, execEntry, hm]

/-- Every command but ENTRY is consumed as a header (R80, R82). -/
theorem exec_consumeHeader {i : Instr} (h : i.row ≠ rowEntry) :
    ∃ run : State → State, ∀ s : State, exec i s = .next (s.consumeHeader run) := by
  cases i with
  | entry a v => exact absurd rfl h
  | qWithAi a =>
    by_cases ha : a.toNat < 128
    · exact ⟨_, fun _ => congrArg Host.Outcome.next (if_pos ha)⟩
    · exact ⟨_, fun _ => congrArg Host.Outcome.next (if_neg ha)⟩
  | init | setChannel | setChannels | qPwmReg | qGainReg | qGainCode => exact ⟨_, fun _ => rfl⟩

/-- Settles O5: the kinds of R81 are the words that select no row, and both an illegal and an ENTRY header raise. -/
theorem illegalHeaderEndsIllegalCommand : Obligations.IllegalHeaderEndsIllegalCommand := by
  unfold Obligations.IllegalHeaderEndsIllegalCommand
  refine ⟨illegalHeader_iff_decode, .inl (by decide), fun s w ws hm hp hw => ?_⟩
  have hready := (cmdReady_iff s).mpr (.inl hm)
  have hraises : step s = .next (State.raise { s with port := ws } .illegalCommand) := by
    obtain hill | ⟨a, v, hentry⟩ := hw
    · obtain ⟨why, hwhy⟩ := (illegalHeader_iff_decode w).mp hill
      exact (step_of_illegal hready hp hwhy).trans
        (congrArg Host.Outcome.next (consumeHeader_idle (s := { s with port := ws }) hm _))
    · exact (step_of_command hready hp hentry).trans (exec_entry_idle (s := { s with port := ws }) hm a v)
  rw [hraises, raise_eq]
  rfl

/-- Settles O6: a decoded command is well formed, and the block is ready. -/
theorem stepRunsDecodedCommand : Obligations.StepRunsDecodedCommand := by
  unfold Obligations.StepRunsDecodedCommand
  intro s w ws i hm hp hd
  obtain ⟨-, hwf⟩ := decodedWordIsItsEncoding w i hd
  exact ⟨hwf, step_of_command ((cmdReady_iff_ne_exec s).mpr hm) hp hd⟩

/-! ### A word in an entry slot -/

/-- A word that matches no ENTRY row stands in its slot as no entry, whether it decodes or not (R82). -/
theorem step_slot_notEntry {s : State} {w : CmdWord} {ws : List CmdWord} (hm : s.mode = .batch) (hp : s.port = w :: ws)
    (hw : ¬ rowEntry.selects w = true) : step s = .next (State.entrySlot { s with port := ws } none) := by
  have hready := (cmdReady_iff s).mpr (.inr hm)
  have consumed : ∀ run : State → State,
      State.consumeHeader { s with port := ws } run = State.entrySlot { s with port := ws } none :=
    consumeHeader_batch (s := { s with port := ws }) hm
  cases hd : decode w with
  | command i =>
    obtain ⟨hsel, -⟩ := selects_of_decode hd
    obtain ⟨run, hrun⟩ := exec_consumeHeader (i := i) fun hrow => hw (hrow ▸ hsel)
    rw [step_of_command hready hp hd, hrun, consumed]
  | illegal why =>
    rw [step_of_illegal hready hp hd, State.illegalWord, consumed]

theorem entrySlot_latched {s : State} {f : BatchFail} (h : s.batchFail = some f) (e : Option (Byte × Byte)) :
    s.entrySlot e = s.slotEnded (some f) := by
  rw [entrySlot_discard h, endEntry_eq, h]

theorem encode_entry_eq (a v : Byte) : encode (.entry a v) = 0x4000#16 ++ (a ++ v) := by
  have hop : (0x4#4 ++ 0#12 : BitVec 16) = 0x4000#16 := by decide
  rw [encode, wordOf_eq_append, ← hop]
  exact (BitVec.append_assoc (x₁ := 0x4#4) (x₂ := 0#12) (x₃ := a ++ v)).symm

/-- Settles O26: the word decides the slot's entry, and `slotEnded` is how each slot ends. -/
theorem entrySlot : Obligations.EntrySlot := by
  unfold Obligations.EntrySlot
  refine ⟨fun s w ws hm hp => ⟨fun f hf => ?_, fun hf hw => ?_⟩,
    fun a v => ⟨decode_of_encode rfl (encode_entry_eq a v), fun s hm =>
      ⟨fun f hf => ?_, fun hf ha => ?_, fun hf ha r rest hans => ?_⟩⟩⟩
  · obtain ⟨e, hstep⟩ := step_slot hm hp
    rw [hstep, entrySlot_latched (s := { s with port := ws }) hf]
  · have hsel : ¬ rowEntry.selects w = true := fun h => hw (beq_iff_eq.mp h)
    rw [step_slot_notEntry hm hp hsel, entrySlot_notEntry (s := { s with port := ws }) hf, latch_endEntry]
  · rw [exec_entry_batch hm, entrySlot_latched hf]
  · rw [exec_entry_batch hm, entrySlot_badChannel hf (channelOf_of_ge ha), latch_endEntry]
  · have hc := channelOf_of_lt ha
    obtain ⟨hwrite, hreg⟩ := levelWrite_of_channelOf hc v .entry
    rw [exec_entry_batch hm, entrySlot_level hf hc, busXact_entry hans rfl hf, hreg, hwrite]
    rfl

/-! ### The words of an assembly line -/

theorem byteOperand_of_le {n : Nat} (h : n ≤ 255) : byteOperand n = some (BitVec.ofNat 8 n) := if_pos (by omega)

theorem byteOperand_eq_none_iff (n : Nat) : byteOperand n = none ↔ 255 < n := by
  unfold byteOperand
  split <;> simp <;> omega

theorem byteOperand_toNat (b : Byte) : byteOperand b.toNat = some b := by
  rw [byteOperand_of_le (by omega), BitVec.ofNat_toNat, BitVec.setWidth_eq]

theorem regOperand_of_le {n : Nat} (h : n ≤ 127) : regOperand n = some (BitVec.ofNat 8 n) := if_pos (by omega)

theorem regOperand_eq_none_iff (n : Nat) : regOperand n = none ↔ 127 < n := by
  unfold regOperand
  split <;> simp <;> omega

theorem regOperand_lt {n : Nat} {a : Byte} (h : regOperand n = some a) : a.toNat < 128 := by
  unfold regOperand at h
  split at h
  · cases h; simp; omega
  · cases h

/-- A line of a single command is that command's word, if its operands fit (R84). -/
theorem assemble_single {l : AsmLine} (h : ∀ es, l ≠ .batch es) : assemble l = l.instr.map fun i => [encode i] := by
  cases l with
  | batch es => exact absurd rfl (h es)
  | init | setChannel | setChannels | entry | qPwmReg | qGainReg | qWithAi | qGainCode => rfl

theorem assemble_of_instr {l : AsmLine} {i : Instr} (h : l.instr = some i) : assemble l = some [encode i] := by
  rw [assemble_single (by rintro es rfl; cases h), h]
  rfl

/-- A line with one byte operand. -/
theorem assemble_byte {l : AsmLine} {n : Nat} {f : Byte → Instr} (hb : ∀ es, l ≠ .batch es)
    (h : l.instr = (byteOperand n).map f) :
    (n ≤ 255 → assemble l = some [encode (f (BitVec.ofNat 8 n))]) ∧ (assemble l = none ↔ 255 < n) := by
  refine ⟨fun hn => assemble_of_instr (by rw [h, byteOperand_of_le hn]; rfl), ?_⟩
  rw [assemble_single hb, h, Option.map_eq_none_iff, Option.map_eq_none_iff, byteOperand_eq_none_iff]

/-- A line with two byte operands. -/
theorem assemble_bytes {l : AsmLine} {m n : Nat} {f : Byte → Byte → Instr} (hb : ∀ es, l ≠ .batch es)
    (h : l.instr = (byteOperand m).bind fun a => (byteOperand n).map (f a)) :
    (m ≤ 255 → n ≤ 255 → assemble l = some [encode (f (BitVec.ofNat 8 m) (BitVec.ofNat 8 n))]) ∧
      (assemble l = none ↔ 255 < m ∨ 255 < n) := by
  refine ⟨fun hm hn => assemble_of_instr (by rw [h, byteOperand_of_le hm, byteOperand_of_le hn]; rfl), ?_⟩
  rw [assemble_single hb, h, Option.map_eq_none_iff, ← byteOperand_eq_none_iff, ← byteOperand_eq_none_iff]
  cases byteOperand m <;> simp

theorem assemble_qWithAi (a : Nat) :
    (a ≤ 127 → assemble (.qWithAi a) = some [encode (.qWithAi (BitVec.ofNat 8 a))]) ∧
      (assemble (.qWithAi a) = none ↔ 127 < a) := by
  refine ⟨fun ha => assemble_of_instr (by rw [AsmLine.instr, regOperand_of_le ha]; rfl), ?_⟩
  rw [assemble_single (l := .qWithAi a) nofun, AsmLine.instr, Option.map_eq_none_iff, Option.map_eq_none_iff,
    regOperand_eq_none_iff]

/-- The operand of `Q_WITH_AI` is checked against its own width, so a line makes no ill-formed command (R84, R109). -/
theorem wellFormed_of_instr {l : AsmLine} {i : Instr} (h : l.instr = some i) : i.WellFormed := by
  cases l with
  | qWithAi a =>
    obtain ⟨b, hb, rfl⟩ := Option.map_eq_some_iff.mp h
    exact wellFormed_qWithAi_iff.mpr (regOperand_lt hb)
  | batch es => cases h
  | setChannel m n | entry m n =>
    obtain ⟨a, -, h⟩ := Option.bind_eq_some_iff.mp h
    obtain ⟨b, -, rfl⟩ := Option.map_eq_some_iff.mp h
    rfl
  | init n | setChannels n | qPwmReg n | qGainReg n | qGainCode n =>
    obtain ⟨a, -, rfl⟩ := Option.map_eq_some_iff.mp h
    rfl

/-- Settles O54: the operands of a line fit exactly when its command has a word, which O1 decodes. -/
theorem assembledLineDecodes : Obligations.AssembledLineDecodes := by
  unfold Obligations.AssembledLineDecodes
  refine ⟨fun l i h => ⟨assemble_of_instr h, decodeInvertsEncode i (wellFormed_of_instr h)⟩,
    fun c => ⟨by simp [lineOf], assemble_byte nofun rfl⟩,
    fun a v => ⟨by simp [lineOf], assemble_bytes nofun rfl⟩,
    fun n => ⟨by simp [lineOf], assemble_byte nofun rfl⟩,
    fun a v => ⟨by simp [lineOf], assemble_bytes nofun rfl⟩,
    fun a => ⟨by simp [lineOf], assemble_byte nofun rfl⟩,
    fun a => ⟨by simp [lineOf], assemble_byte nofun rfl⟩,
    fun a => ⟨by simp [lineOf], assemble_qWithAi a⟩,
    fun c => ⟨by simp [lineOf], assemble_byte nofun rfl⟩⟩

/-! ### The batch pseudo-instruction -/

/-- A list of at most 255 entries is one piece (R85). -/
theorem batchPieces_of_le {es : List (Nat × Nat)} (h : es.length ≤ 255) (n : Nat) : batchPieces n es = [es] := by
  cases n with
  | zero => rfl
  | succ n => exact if_pos h

/-- A list of at most 255 entries assembles as its one piece. -/
theorem assemble_batch {es : List (Nat × Nat)} (h : es.length ≤ 255) : assemble (.batch es) = assemblePiece es := by
  rw [assemble, batchPieces_of_le h]
  cases hp : assemblePiece es <;> simp [hp]

/-- The entries of a batch, each with byte operands, are its ENTRY commands in order. -/
theorem mapM_entry (es : List (Byte × Byte)) :
    (es.map fun e => (e.1.toNat, e.2.toNat)).mapM (fun e => (AsmLine.entry e.1 e.2).instr) =
      some (es.map fun e => Instr.entry e.1 e.2) := by
  induction es with
  | nil => rfl
  | cons e es ih =>
    have hentry : (AsmLine.entry e.1.toNat e.2.toNat).instr = some (.entry e.1 e.2) := by
      simp only [AsmLine.instr, byteOperand_toNat]; rfl
    simp [List.mapM_cons, hentry, ih]

/-- Settles O55: the list is one piece, and its header and entries are the words of their commands. -/
theorem batchPseudoInstructionExpands : Obligations.BatchPseudoInstructionExpands := by
  unfold Obligations.BatchPseudoInstructionExpands
  intro es h
  have hlen : (es.map fun e => (e.1.toNat, e.2.toNat)).length = es.length := List.length_map _
  have hheader : (AsmLine.setChannels es.length).instr = some (.setChannels (BitVec.ofNat 8 es.length)) := by
    rw [AsmLine.instr, byteOperand_of_le h]; rfl
  rw [assemble_batch (by rw [hlen]; exact h), assemblePiece, hlen, hheader, mapM_entry]
  simp

end Sys2Proof.Machine


/-! # The register map (40_register_map.md)

The statements of 40_register_map.md: the register addresses and their names, the address byte of a block write, the
register queries, and what every command with no bus activity leaves unchanged. -/

namespace Sys2Proof.Machine

/-! ### The register addresses -/

/-- A base at most 0x68 plus a channel does not carry out of 7 bits (R103). -/
theorem toNat_base_add_channel {base : RegAddr} (h : base.toNat + 24 ≤ 128) (ch : Channel) :
    (base + BitVec.ofNat 7 ch.val).toNat = base.toNat + ch.val := by
  rw [BitVec.toNat_add, BitVec.toNat_ofNat]
  omega

theorem pwmRegister_toNat (ch : Channel) : (pwmRegister ch).toNat = 0x0A + ch.val :=
  toNat_base_add_channel (base := Config.pwmBase) (by decide) ch

theorem gainRegister_toNat (ch : Channel) : (gainRegister ch).toNat = 0x22 + ch.val :=
  toNat_base_add_channel (base := Config.gainBase) (by decide) ch

/-- Settles O12: the two sums as numbers, below 0x22 the one and not below it the other. -/
theorem registerAddresses : Obligations.RegisterAddresses := by
  unfold Obligations.RegisterAddresses
  intro ch
  have hpwm := pwmRegister_toNat ch
  have hgain := gainRegister_toNat ch
  refine ⟨hpwm, hgain, fun ch' => ⟨?_, ?_, ?_⟩⟩
  · have hgain' := gainRegister_toNat ch'
    exact BitVec.toNat_ne_iff_ne.mp (by omega)
  · exact BitVec.toNat_ne_iff_ne.mp (by simp [hpwm])
  · exact BitVec.toNat_ne_iff_ne.mp (by simp [hgain])

/-! ### The auto-increment flag -/

/-- `with_autoincrement a` is the address byte with `AI = 1` and `REG = a` (R43, R104). -/
theorem withAutoincrement_eq_append (a : RegAddr) : withAutoincrement a = 1#1 ++ a := by
  rw [withAutoincrement, BitVec.append_def]
  rfl

theorem toNat_one_append (a : RegAddr) : (1#1 ++ a : BitVec 8).toNat = 128 + a.toNat := by
  rw [BitVec.toNat_append]
  exact (Nat.shiftLeft_add_eq_or_of_lt a.isLt 1).symm

/-- Settles O13: the byte is bit 7 set, then the address. -/
theorem autoincrementSetsBitSeven : Obligations.AutoincrementSetsBitSeven := by
  unfold Obligations.AutoincrementSetsBitSeven
  intro a
  rw [withAutoincrement_eq_append]
  exact ⟨toNat_one_append a, addrByteAi_append 1#1 a, addrByteReg_append 1#1 a⟩

/-! ### The names of the registers -/

/-- The addresses a name stands for (R106). -/
def RegisterName.Names (a : RegAddr) : RegisterName → Prop
  | .mode1 => a = 0
  | .pwm n => n < 24 ∧ a.toNat = 0x0A + n
  | .gain n => n < 24 ∧ a.toNat = 0x22 + n
  | .unnamed => (0x01 ≤ a.toNat ∧ a.toNat ≤ 0x09) ∨ 0x3A ≤ a.toNat

theorem names_decodeRegister (a : RegAddr) : (decodeRegister a).Names a := by
  unfold decodeRegister
  split
  next hzero => exact BitVec.eq_of_toNat_eq hzero
  next hzero =>
    split
    next hpwm => exact ⟨by omega, by omega⟩
    next hpwm =>
      split
      next hgain => exact ⟨by omega, by omega⟩
      next hgain => simp only [RegisterName.Names]; omega

/-- The ranges of the four kinds of name are disjoint, and an address determines the channel in its range (R103, R106). -/
theorem decodeRegister_of_names {a : RegAddr} {r : RegisterName} (h : r.Names a) : decodeRegister a = r := by
  unfold decodeRegister
  cases r with
  | mode1 => exact if_pos (congrArg BitVec.toNat h)
  | pwm n =>
    obtain ⟨hn, ha⟩ := h
    rw [if_neg (by omega), if_pos (by omega), ha, Nat.add_sub_cancel_left]
  | gain n =>
    obtain ⟨hn, ha⟩ := h
    rw [if_neg (by omega), if_neg (by omega), if_pos (by omega), ha, Nat.add_sub_cancel_left]
  | unnamed =>
    have hrange : (0x01 ≤ a.toNat ∧ a.toNat ≤ 0x09) ∨ 0x3A ≤ a.toNat := h
    rw [if_neg (by omega), if_neg (by omega), if_neg (by omega)]

/-- `decode_register` gives the one name of an address (R106). -/
theorem decodeRegister_eq_iff {a : RegAddr} {r : RegisterName} : decodeRegister a = r ↔ r.Names a :=
  ⟨fun h => h ▸ names_decodeRegister a, decodeRegister_of_names⟩

/-- Settles O14: each clause is the name's own case of `decodeRegister_eq_iff`. -/
theorem decodeRegisterNames : Obligations.DecodeRegisterNames := by
  unfold Obligations.DecodeRegisterNames
  exact ⟨fun _ => decodeRegister_eq_iff, fun _ _ => decodeRegister_eq_iff, fun _ _ => decodeRegister_eq_iff,
    fun _ => decodeRegister_eq_iff,
    fun ch => ⟨decodeRegister_eq_iff.mpr ⟨ch.isLt, pwmRegister_toNat ch⟩,
      decodeRegister_eq_iff.mpr ⟨ch.isLt, gainRegister_toNat ch⟩⟩⟩

/-! ### The words of the queries -/

/-- A word whose top half is `OP` and the zero reserved bits (R71). -/
theorem wordOf_eq_header_append {op : BitVec 4} {top : BitVec 16} (h : op ++ 0#12 = top) (a b : Byte) :
    wordOf op a b = top ++ (a ++ b) := by
  rw [wordOf_eq_append, ← h]
  exact (BitVec.append_assoc (x₁ := op) (x₂ := 0#12) (x₃ := a ++ b)).symm

theorem encode_qPwmReg_eq (a : Byte) : encode (.qPwmReg a) = 0x8000#16 ++ (a ++ 0x00#8) :=
  wordOf_eq_header_append (by decide) a 0

theorem encode_qGainReg_eq (a : Byte) : encode (.qGainReg a) = 0x9000#16 ++ (a ++ 0x00#8) :=
  wordOf_eq_header_append (by decide) a 0

theorem encode_qWithAi_eq (a : Byte) : encode (.qWithAi a) = 0xA000#16 ++ (a ++ 0x00#8) :=
  wordOf_eq_header_append (by decide) a 0

/-! ### The queries in IDLE -/

section
variable {s : State} (hm : s.mode = .idle)
include hm

theorem exec_qPwmReg_idle (a : Byte) : exec (.qPwmReg a) s = .next (s.queryRegister a pwmRegister) :=
  congrArg Host.Outcome.next (consumeHeader_idle hm _)

theorem exec_qGainReg_idle (a : Byte) : exec (.qGainReg a) s = .next (s.queryRegister a gainRegister) :=
  congrArg Host.Outcome.next (consumeHeader_idle hm _)

theorem exec_qGainCode_idle (c : Byte) : exec (.qGainCode c) s = .next (s.succeed (convertCurrentToGain c)) :=
  congrArg Host.Outcome.next (consumeHeader_idle hm _)

theorem exec_qWithAi_idle {a : Byte} (ha : a.toNat < 128) :
    exec (.qWithAi a) s = .next (s.succeed (withAutoincrement (a.setWidth 7))) := by
  rw [exec, execQWithAi, if_pos ha, consumeHeader_idle hm]

/-- A `Q_WITH_AI` that is not well formed is an illegal word (R81, D23). -/
theorem exec_qWithAi_idle_illegal {a : Byte} (ha : ¬ a.toNat < 128) :
    exec (.qWithAi a) s = .next (s.raise .illegalCommand) := by
  rw [exec, execQWithAi, if_neg ha, State.illegalWord, consumeHeader_idle hm]

theorem exec_setChannels_zero_idle : exec (.setChannels 0) s = .next (s.succeed 0) :=
  congrArg Host.Outcome.next (consumeHeader_idle hm _)

theorem exec_setChannels_idle {n : Byte} (hn : n ≠ 0) : exec (.setChannels n) s = .next (s.openBatch n) := by
  rw [exec, execSetChannels, consumeHeader_idle hm, if_neg hn]
  rfl

end

/-! ### The register queries -/

/-- A query of a valid channel's register, whose address is `base + ch`, puts that address in VALUE (R107, R108). -/
theorem queryRegister_of_lt (s : State) {a : Byte} (ha : a.toNat < 24) {reg : Channel → RegAddr} {base : Nat}
    (hreg : ∀ ch, (reg ch).toNat = base + ch.val) :
    s.queryRegister a reg =
      s.reported (ResultFields.pack { status := 0, value := BitVec.ofNat 8 (base + a.toNat) }) := by
  rw [State.queryRegister, channelOf_of_lt ha, ← hreg ⟨a.toNat, ha⟩, BitVec.ofNat_toNat, ← succeed_eq]

/-- A query of an invalid channel's register is `InvalidChannel` (R105, R202). -/
theorem queryRegister_of_ge (s : State) {a : Byte} (ha : 24 ≤ a.toNat) (reg : Channel → RegAddr) :
    s.queryRegister a reg = s.reported (ResultFields.pack { status := 1 }) := by
  rw [State.queryRegister, channelOf_of_ge ha, raise_eq]
  rfl

/-- Settles O19: the word is the command's encoding, and the query is of the PWM register. -/
theorem queryPwmRegister : Obligations.QueryPwmRegister := by
  unfold Obligations.QueryPwmRegister
  refine fun a => ⟨decode_of_encode rfl (encode_qPwmReg_eq a), fun s hm => ?_⟩
  rw [exec_qPwmReg_idle hm]
  exact ⟨fun ha => congrArg _ (queryRegister_of_lt s ha pwmRegister_toNat),
    fun ha => congrArg _ (queryRegister_of_ge s ha pwmRegister)⟩

/-- Settles O20: the word is the command's encoding, and the query is of the gain register. -/
theorem queryGainRegister : Obligations.QueryGainRegister := by
  unfold Obligations.QueryGainRegister
  refine fun a => ⟨decode_of_encode rfl (encode_qGainReg_eq a), fun s hm => ?_⟩
  rw [exec_qGainReg_idle hm]
  exact ⟨fun ha => congrArg _ (queryRegister_of_lt s ha gainRegister_toNat),
    fun ha => congrArg _ (queryRegister_of_ge s ha gainRegister)⟩

/-! ### The address-byte query -/

theorem zero_append_eq_setWidth (a : RegAddr) : (0#1 ++ a : BitVec 8) = a.setWidth 8 :=
  (BitVec.setWidth_eq_append (by decide)).symm

/-- A 7-bit address as an operand byte has `A[7] = 0` (R109). -/
theorem setWidth_toNat_lt (a : RegAddr) : (a.setWidth 8 : Byte).toNat < 128 := by
  rw [BitVec.toNat_setWidth_of_le (by decide)]
  exact a.isLt

/-- The word of `Q_WITH_AI` with `A[7] = 1` is illegal (R81, R109). -/
theorem illegalHeader_qWithAi_one (a : RegAddr) : IllegalHeader (0xA000#16 ++ ((1#1 ++ a) ++ 0x00#8)) := by
  have hbit : 128 ≤ (1#1 ++ a : BitVec 8).toNat := by rw [toNat_one_append]; exact Nat.le_add_right _ _
  rw [← encode_qWithAi_eq, encode]
  exact .inr (.inr (.inr (.inr ⟨fieldOp_wordOf _ _ _, by rwa [fieldA_wordOf]⟩)))

/-- Settles O21: with `A[7] = 0` the word is the command's encoding, with `A[7] = 1` it is an illegal header. -/
theorem queryWithAutoincrement : Obligations.QueryWithAutoincrement := by
  unfold Obligations.QueryWithAutoincrement
  obtain ⟨-, -, hillegal⟩ := illegalHeaderEndsIllegalCommand
  refine ⟨fun a => ⟨?_, fun s hm => ?_⟩,
    fun a s ws hm hp => hillegal s _ ws hm hp (.inl (illegalHeader_qWithAi_one a))⟩
  · rw [zero_append_eq_setWidth]
    exact decode_of_encode (wellFormed_qWithAi_iff.mpr (setWidth_toNat_lt a)) (encode_qWithAi_eq _)
  · have hreg : (a.setWidth 8 : Byte).setWidth 7 = a := by simp
    rw [exec_qWithAi_idle hm (setWidth_toNat_lt a), hreg, succeed_eq]
    rfl

/-! ### The commands with no bus activity -/

/-- The commands that, consumed in IDLE, make no transport call: the queries, SET_CHANNELS and ENTRY. -/
def NoBus (i : Instr) : Prop :=
  (∃ a, i = .qPwmReg a) ∨ (∃ a, i = .qGainReg a) ∨ (∃ a, i = .qWithAi a) ∨ (∃ c, i = .qGainCode c) ∨
    (∃ n, i = .setChannels n) ∨ ∃ a v, i = .entry a v

theorem queryRegister_completes (s : State) (a : Byte) (reg : Channel → RegAddr) :
    ∃ f, s.queryRegister a reg = s.complete f := by
  unfold State.queryRegister
  cases channelOf a with
  | none => exact ⟨_, rfl⟩
  | some ch => exact ⟨_, rfl⟩

/-- A command with no bus activity ends with a RESULT write, or is a SET_CHANNELS that opens a batch (R107 to R109, R145,
R149, R174). -/
theorem exec_noBus_idle {i : Instr} {s : State} (hm : s.mode = .idle) (hi : NoBus i) :
    (∃ f, exec i s = .next (s.complete f)) ∨ ∃ n, i = .setChannels n ∧ exec i s = .next (s.openBatch n) := by
  obtain ⟨a, rfl⟩ | ⟨a, rfl⟩ | ⟨a, rfl⟩ | ⟨c, rfl⟩ | ⟨n, rfl⟩ | ⟨a, v, rfl⟩ := hi
  · obtain ⟨f, hf⟩ := queryRegister_completes s a pwmRegister
    exact .inl ⟨f, hf ▸ exec_qPwmReg_idle hm a⟩
  · obtain ⟨f, hf⟩ := queryRegister_completes s a gainRegister
    exact .inl ⟨f, hf ▸ exec_qGainReg_idle hm a⟩
  · by_cases ha : a.toNat < 128
    · exact .inl ⟨_, exec_qWithAi_idle hm ha⟩
    · exact .inl ⟨_, exec_qWithAi_idle_illegal hm ha⟩
  · exact .inl ⟨_, exec_qGainCode_idle hm c⟩
  · by_cases hn : n = 0
    · exact .inl ⟨_, hn ▸ exec_setChannels_zero_idle hm⟩
    · exact .inr ⟨n, rfl, exec_setChannels_idle hm hn⟩
  · exact .inl ⟨_, exec_entry_idle hm a v⟩

/-- Settles O35: a RESULT write changes RESULT, MODE and the observation alone, opening a batch the batch registers and
MODE alone. -/
theorem noBusCommandsFrame : Obligations.NoBusCommandsFrame := by
  unfold Obligations.NoBusCommandsFrame
  intro i s t hm hi ht
  obtain ⟨f, hf⟩ | ⟨n, hn, hopen⟩ := exec_noBus_idle hm hi
  · cases hf.symm.trans ht
    exact ⟨rfl, rfl, rfl, rfl, rfl, .inr rfl, fun _ => ⟨rfl, rfl, rfl⟩, img_reported s f.pack⟩
  · cases hopen.symm.trans ht
    exact ⟨rfl, rfl, rfl, rfl, rfl, .inl ⟨rfl, rfl⟩, fun hne => absurd hn (hne n), fun _ => rfl⟩

end Sys2Proof.Machine

/-! # The device controller (41_device_controller.md)

The statements of 41_device_controller.md: the words and the effect of INIT, SET_CHANNEL, SET_CHANNELS and ENTRY, what each
leaves unchanged, what INIT guarantees, and a whole batch from its header to its one RESULT. -/

namespace Sys2Proof.Machine

/-! ### The words of the commands -/

theorem encode_setChannel_eq (a v : Byte) : encode (.setChannel a v) = 0x2000#16 ++ (a ++ v) :=
  wordOf_eq_header_append (by decide) a v

theorem encode_setChannels_eq (n : Byte) : encode (.setChannels n) = 0x3000#16 ++ (n ++ 0x00#8) :=
  wordOf_eq_header_append (by decide) n 0

theorem encode_init_eq (c : Byte) : encode (.init c) = 0x100000#24 ++ c := by
  have htop : (0x1000#16 ++ 0x00#8 : BitVec 24) = 0x100000#24 := by decide
  rw [encode, wordOf_eq_header_append (top := 0x1000#16) (by decide), ← htop]
  exact (BitVec.append_assoc (x₁ := 0x1000#16) (x₂ := 0x00#8) (x₃ := c)).symm

/-! ### The commands consumed in IDLE -/

theorem exec_setChannel_idle_invalid {s : State} (hm : s.mode = .idle) {a : Byte} (hc : channelOf a = none) (v : Byte) :
    exec (.setChannel a v) s = .next (s.raise .invalidChannel) := by
  simp only [exec, execSetChannel, consumeHeader_idle hm, hc]

/-- Settles O27: the arm raises `IllegalCommand`, and `raise` is a RESULT write alone. -/
theorem entryOutsideBatchIsIllegal : Obligations.EntryOutsideBatchIsIllegal := by
  unfold Obligations.EntryOutsideBatchIsIllegal
  intro a v s hm
  rw [exec_entry_idle hm, raise_eq]
  rfl

/-- Settles O25: the word is the command's encoding, and the header completes or opens a batch. -/
theorem setChannelsOpensBatch : Obligations.SetChannelsOpensBatch := by
  unfold Obligations.SetChannelsOpensBatch
  refine fun n => ⟨decode_of_encode rfl (encode_setChannels_eq n), fun s hm => ⟨?_, exec_setChannels_idle hm⟩⟩
  rintro rfl
  rw [exec_setChannels_zero_idle hm, succeed_eq]

/-- Settles O23: an invalid channel raises before a transaction is opened, and a valid one is one transaction. -/
theorem setChannelWritesOneLevel : Obligations.SetChannelWritesOneLevel := by
  unfold Obligations.SetChannelWritesOneLevel
  refine fun a v => ⟨decode_of_encode rfl (encode_setChannel_eq a v), fun s hm =>
    ⟨fun ha => ?_, fun ha r rest hans => ?_⟩⟩
  · rw [exec_setChannel_idle_invalid hm (channelOf_of_ge ha), raise_eq]
    rfl
  · have hc := channelOf_of_lt ha
    obtain ⟨hwrite, hreg⟩ := levelWrite_of_channelOf hc v .setChannel
    rw [exec_setChannel_idle hm hc, busXact_setChannel hans rfl, hreg, hwrite]
    rfl

/-- Settles O24: the mode write fails and ends the command, or the gain write follows it and its outcome does. -/
theorem initWritesModeThenGains : Obligations.InitWritesModeThenGains := by
  unfold Obligations.InitWritesModeThenGains
  refine fun c => ⟨decode_of_encode rfl (encode_init_eq c), fun s rest hm => ?_⟩
  rw [exec_init_idle hm]
  refine ⟨fun p hans => ?_, fun r hans => ?_⟩
  · rw [busXact_modeWrite_fail hans, modeWrite_regaddr, modeWrite_eq]
    rfl
  · rw [busXact_modeWrite_gainWrite hans, gainWrite_regaddr, modeWrite_eq, gainWrite_eq]
    rfl

/-! ### How far the transport has answered -/

/-- The responses drawn end a transaction, or run out at one of its calls (R47, R217). -/
theorem draws_cases (l : List Answer) : (∃ p, l = drawsBefore p) ∨ ∃ r rest, l = drawsFor r ++ rest := by
  match l with
  | [] => exact .inl ⟨.callBegin, rfl⟩
  | [.accepted] => exact .inl ⟨.callWrite, rfl⟩
  | [.accepted, .accepted] => exact .inl ⟨.callEnd, rfl⟩
  | .failed :: rest => exact .inr ⟨.fail .callBegin, rest, rfl⟩
  | .accepted :: .failed :: rest => exact .inr ⟨.fail .callWrite, rest, rfl⟩
  | .accepted :: .accepted :: .failed :: rest => exact .inr ⟨.fail .callEnd, rest, rfl⟩
  | .accepted :: .accepted :: .accepted :: rest => exact .inr ⟨.ok, rest, rfl⟩

/-- `INIT` waits in its mode write or ends with the failure of it, or waits in its gain write or ends with the outcome of
that (R131). -/
theorem init_draws_cases (l : List Answer) :
    (∃ p, l = drawsBefore p) ∨ (∃ p rest, l = drawsFor (.fail p) ++ rest) ∨
    (∃ p, l = drawsFor .ok ++ drawsBefore p) ∨ ∃ r rest, l = drawsFor .ok ++ (drawsFor r ++ rest) := by
  obtain hwaits | ⟨_ | p, rest, rfl⟩ := draws_cases l
  · exact .inl hwaits
  · obtain ⟨p, rfl⟩ | ⟨r, rest, rfl⟩ := draws_cases rest
    · exact .inr (.inr (.inl ⟨p, rfl⟩))
    · exact .inr (.inr (.inr ⟨r, rest, rfl⟩))
  · exact .inr (.inl ⟨p, rest, rfl⟩)

theorem busXact_modeWrite_waits_gainWrite {s : State} {p : Phase} (h : s.answers = drawsFor .ok ++ drawsBefore p)
    (g : Byte) :
    s.busXact (modeWrite g) =
      { s with mode := .exec, xphase := some p, xact := some (gainWrite g), answers := [],
               log := s.log ++ transactionEvents s.busAddr (modeWrite g).bytes .ok ++
                 eventsBefore s.busAddr (gainWrite g).bytes p } := by
  rw [busXact_modeWrite_ok h, drainWith_drawsBefore]

/-! ### What INIT guarantees -/

theorem resultStatus_transactionReport_fail (a : RegAddr) (p : Phase) :
    resultStatus (transactionReport a (.fail p)) ≠ 0 := by
  rw [transactionReport, resultStatus_pack]
  exact (by decide : (2 : BitVec 3) ≠ 0)

/-- `INIT` ends with STATUS = OK only when all six calls of its two transactions are accepted (R131, R135). -/
theorem answers_of_init_ok {c : Byte} {s t : State} (hm : s.mode = .idle) (h : exec (.init c) s = .next t)
    (hidle : t.mode = .idle) (hok : resultStatus t.result = 0) :
    ∃ rest, s.answers = List.replicate 6 .accepted ++ rest := by
  cases (exec_init_idle hm c).symm.trans h
  obtain ⟨p, hans⟩ | ⟨p, rest, hans⟩ | ⟨p, hans⟩ | ⟨_ | p, rest, hans⟩ := init_draws_cases s.answers
  · rw [busXact_waits hans] at hidle
    cases hidle
  · rw [busXact_modeWrite_fail hans] at hok
    exact absurd hok (resultStatus_transactionReport_fail _ p)
  · rw [busXact_modeWrite_waits_gainWrite hans] at hidle
    cases hidle
  · exact ⟨rest, hans⟩
  · rw [busXact_modeWrite_gainWrite hans] at hok
    exact absurd hok (resultStatus_transactionReport_fail _ p)

/-- Settles O39: with STATUS = OK every call was accepted, and then the image is that of `initEvents`. -/
theorem initGuarantee : Obligations.InitGuarantee := by
  unfold Obligations.InitGuarantee
  intro c s t hm h hidle hok
  obtain ⟨rest, hans⟩ := answers_of_init_ok hm h hidle hok
  rw [exec_init_accepted hm hans] at h
  cases h
  simp only [State.img, State.image, read_imageOf_initEvents]
  exact ⟨rfl, fun i hi => if_pos (by omega)⟩

/-! ### Events that leave an address of the image -/

/-- Whatever the image is, the event leaves its address `x`. -/
def Event.Leaves (x : Nat) (e : Event) : Prop := ∀ m : Memory, (m.observe e).read x = m.read x

@[simp] theorem leaves_call (x : Nat) (c : Call) (r : Option Answer) : (Event.call c r).Leaves x := fun _ => rfl

theorem read_imageOf_append {x : Nat} {es : List Event} (h : ∀ e ∈ es, e.Leaves x) (log : List Event) :
    (imageOf (log ++ es)).read x = (imageOf log).read x := by
  rw [imageOf_append]
  generalize imageOf log = m
  induction es generalizing m with
  | nil => rfl
  | cons e es ih =>
    obtain ⟨hfirst, hothers⟩ := List.forall_mem_cons.mp h
    rw [List.foldl_cons, ih hothers, hfirst]

/-- Of the events of a transaction only its return can change the image. -/
theorem leaves_transactionEvents {x : Nat} {bytes : List Byte} {r : XactResult} (h : (Event.xact bytes r).Leaves x)
    (addr : BusAddr) : ∀ e ∈ transactionEvents addr bytes r, e.Leaves x := by
  match r with
  | .ok | .fail .callBegin | .fail .callWrite | .fail .callEnd => simp [transactionEvents, h]

theorem leaves_eventsBefore (x : Nat) (addr : BusAddr) (bytes : List Byte) (p : Phase) :
    ∀ e ∈ eventsBefore addr bytes p, e.Leaves x := by
  cases p <;> simp [eventsBefore]

/-- The write of a level leaves every address but its PWM register, whatever its outcome (R55, R56, R140). -/
theorem leaves_levelWrite {ch : Channel} {x : Nat} (h : x ≠ (pwmRegister ch).toNat) (v : Byte) (c : Caller)
    (r : XactResult) : (Event.xact (levelWrite ch v c).bytes r).Leaves x := by
  have hbytes : (levelWrite ch v c).bytes = [0#1 ++ pwmRegister ch, v] := by
    rw [zero_append_eq_setWidth]; rfl
  have hai := addrByteAi_append 0#1 (pwmRegister ch)
  have hreg := addrByteReg_append 0#1 (pwmRegister ch)
  intro m
  rw [hbytes]
  cases r with
  | ok => exact (m.read_commit_single hai v x).trans (if_neg (by rwa [hreg]))
  | fail p => exact (m.read_spoil_single hai v x).trans (if_neg (by rwa [hreg]))

/-- The mode write leaves every address but MODE1 (R55, R56, R132). -/
theorem leaves_modeWrite {x : Nat} (h : x ≠ Config.mode1Addr.toNat) (g : Byte) (r : XactResult) :
    (Event.xact (modeWrite g).bytes r).Leaves x := fun m =>
  match r with
  | .ok => (m.read_modeWrite_ok g x).trans (if_neg h)
  | .fail p => (m.read_modeWrite_fail g p x).trans (if_neg h)

/-- The gain write leaves every address but the gain registers, even where the mode pattern is not known (R55, R56, R133). -/
theorem leaves_gainWrite {x : Nat} (h : ∀ ch, x ≠ (gainRegister ch).toNat) (g : Byte) (r : XactResult) :
    (Event.xact (gainWrite g).bytes r).Leaves x := by
  have hrange : ¬ (0x22 ≤ x ∧ x ≤ 0x39) := fun hx =>
    h ⟨x - 0x22, by omega⟩ (by rw [gainRegister_toNat]; simp only; omega)
  intro m
  cases r with
  | ok =>
    obtain ⟨hai, hreg⟩ := gainByte
    rw [gainWrite_eq]
    refine (m.read_commit_block hai hreg g (List.replicate 23 g) x).trans ?_
    have hnat : (0x22#7).toNat = 0x22 := rfl
    rw [hnat, List.length_replicate, if_neg (by omega), if_neg (by omega)]
  | fail p => exact (m.read_gainWrite_fail g p x).trans (if_neg hrange)

/-! ### What the transactions of a command leave unchanged -/

/-- `u` differs from `s` at most in MODE and XPHASE, in the open transaction, in responses used from the front and in what
is observed, which leaves the image at every address `x` with `kept x`. -/
structure State.BusFrame (kept : Nat → Prop) (s u : State) : Prop where
  busAddr : u.busAddr = s.busAddr
  batchRem : u.batchRem = s.batchRem
  batchIdx : u.batchIdx = s.batchIdx
  batchFail : u.batchFail = s.batchFail
  result : u.result = s.result
  port : u.port = s.port
  used : ∃ used, s.answers = used ++ u.answers
  img : ∀ x, kept x → u.img x = s.img x

theorem busFrame_refl (kept : Nat → Prop) (s : State) : s.BusFrame kept s :=
  ⟨rfl, rfl, rfl, rfl, rfl, rfl, ⟨[], rfl⟩, fun _ _ => rfl⟩

/-- Observing events that leave the kept addresses, with the responses used up to `rest`. -/
theorem busFrame_of_leaves {kept : Nat → Prop} {s : State} {used rest : List Answer} {es : List Event}
    (hused : s.answers = used ++ rest) (hes : ∀ x, kept x → ∀ e ∈ es, e.Leaves x) (m : Mode) (p : Option Phase)
    (o : Option Xact) :
    s.BusFrame kept { s with mode := m, xphase := p, xact := o, answers := rest, log := s.log ++ es } :=
  ⟨rfl, rfl, rfl, rfl, rfl, rfl, ⟨used, hused⟩, fun x hx => read_imageOf_append (hes x hx) s.log⟩

/-- A transaction that waits for a response. -/
theorem busFrame_waits (kept : Nat → Prop) {s : State} {p : Phase} (hans : s.answers = drawsBefore p) (x : Xact) :
    s.BusFrame kept (s.busXact x) ∧ (s.busXact x).mode = .exec := by
  rw [busXact_waits hans]
  exact ⟨busFrame_of_leaves (hans.trans (List.append_nil _).symm) (fun x _ => leaves_eventsBefore x _ _ p) _ _ _, rfl⟩

/-- A transaction whose return leaves the kept addresses. -/
theorem busFrame_returned {kept : Nat → Prop} {s : State} {bytes : List Byte} {r : XactResult} {rest : List Answer}
    (hans : s.answers = drawsFor r ++ rest) (h : ∀ x, kept x → (Event.xact bytes r).Leaves x) :
    s.BusFrame kept
      { s with xphase := none, xact := none, answers := rest, log := s.log ++ transactionEvents s.busAddr bytes r } :=
  busFrame_of_leaves hans (fun x hx => leaves_transactionEvents (h x hx) s.busAddr) s.mode none none

/-- A command consumed in IDLE has only made transactions that leave the kept addresses: it waits in one, or it has then
ended with a RESULT write. -/
def State.CommandFrame (kept : Nat → Prop) (s t : State) : Prop :=
  (s.BusFrame kept t ∧ t.mode = .exec) ∨ ∃ u v, s.BusFrame kept u ∧ t = u.reported v

theorem commandFrame_parts {kept : Nat → Prop} {s t : State} (h : s.CommandFrame kept t) :
    t.busAddr = s.busAddr ∧ t.batchRem = s.batchRem ∧ t.batchIdx = s.batchIdx ∧ t.batchFail = s.batchFail ∧
    t.port = s.port ∧ (∃ used, s.answers = used ++ t.answers) ∧ (t.mode = .exec → t.result = s.result) ∧
    ∀ x, kept x → t.img x = s.img x := by
  obtain ⟨hf, -⟩ | ⟨u, v, hf, rfl⟩ := h
  · exact ⟨hf.busAddr, hf.batchRem, hf.batchIdx, hf.batchFail, hf.port, hf.used, fun _ => hf.result, hf.img⟩
  · exact ⟨hf.busAddr, hf.batchRem, hf.batchIdx, hf.batchFail, hf.port, hf.used, nofun,
      fun x hx => (img_reported u v x).trans (hf.img x hx)⟩

/-! ### SET_CHANNEL -/

/-- The addresses that a level of operand `a` leaves: all but the PWM register of its channel, if it names one. -/
def LevelKeeps (a : Byte) (x : Nat) : Prop := ∀ ch, channelOf a = some ch → x ≠ (pwmRegister ch).toNat

theorem commandFrame_setChannel {a v : Byte} {s t : State} (hm : s.mode = .idle)
    (h : exec (.setChannel a v) s = .next t) : s.CommandFrame (LevelKeeps a) t := by
  cases hc : channelOf a with
  | none =>
    cases (exec_setChannel_idle_invalid hm hc v).symm.trans h
    exact .inr ⟨s, _, busFrame_refl _ s, raise_eq s _⟩
  | some ch =>
    cases (exec_setChannel_idle hm hc v).symm.trans h
    obtain ⟨p, hans⟩ | ⟨r, rest, hans⟩ := draws_cases s.answers
    · exact .inl (busFrame_waits _ hans _)
    · exact .inr ⟨_, _, busFrame_returned hans fun x hx => leaves_levelWrite (hx ch hc) v _ r,
        busXact_setChannel hans rfl⟩

/-- Settles O32: its one transaction leaves every address but the PWM register, and its end is a RESULT write. -/
theorem setChannelFrame : Obligations.SetChannelFrame := by
  unfold Obligations.SetChannelFrame
  intro a v s t hm h
  exact commandFrame_parts (commandFrame_setChannel hm h)

/-! ### INIT -/

/-- The addresses that INIT leaves: all but MODE1 and the gain registers. -/
def InitKeeps (x : Nat) : Prop := x ≠ Config.mode1Addr.toNat ∧ ∀ ch, x ≠ (gainRegister ch).toNat

theorem commandFrame_init {c : Byte} {s t : State} (hm : s.mode = .idle) (h : exec (.init c) s = .next t) :
    s.CommandFrame InitKeeps t := by
  cases (exec_init_idle hm c).symm.trans h
  have hmode : ∀ r x, InitKeeps x → ∀ e ∈ transactionEvents s.busAddr (modeWrite (convertCurrentToGain c)).bytes r,
      e.Leaves x := fun r x hx => leaves_transactionEvents (leaves_modeWrite hx.1 _ r) s.busAddr
  have hboth : ∀ {es : List Event}, (∀ x, InitKeeps x → ∀ e ∈ es, e.Leaves x) → ∀ x, InitKeeps x →
      ∀ e ∈ transactionEvents s.busAddr (modeWrite (convertCurrentToGain c)).bytes .ok ++ es, e.Leaves x :=
    fun hes x hx => List.forall_mem_append.mpr ⟨hmode .ok x hx, hes x hx⟩
  obtain ⟨p, hans⟩ | ⟨p, rest, hans⟩ | ⟨p, hans⟩ | ⟨r, rest, hans⟩ := init_draws_cases s.answers
  · exact .inl (busFrame_waits _ hans _)
  · exact .inr ⟨_, _, busFrame_of_leaves hans (hmode _) s.mode none none, busXact_modeWrite_fail hans _⟩
  · rw [busXact_modeWrite_waits_gainWrite hans, List.append_assoc]
    exact .inl ⟨busFrame_of_leaves (hans.trans (List.append_nil _).symm)
      (hboth fun x _ => leaves_eventsBefore x _ _ p) _ _ _, rfl⟩
  · rw [busXact_modeWrite_gainWrite hans, List.append_assoc]
    exact .inr ⟨_, _, busFrame_of_leaves (hans.trans (List.append_assoc _ _ _).symm)
      (hboth fun x hx => leaves_transactionEvents (leaves_gainWrite hx.2 _ r) s.busAddr) s.mode none none, rfl⟩

/-- Settles O33: its two transactions leave every address but MODE1 and the gain registers, and its end is a RESULT write. -/
theorem initFrame : Obligations.InitFrame := by
  unfold Obligations.InitFrame
  intro c s t hm h
  obtain ⟨hbus, hrem, hidx, hfail, hport, hused, hresult, himg⟩ := commandFrame_parts (commandFrame_init hm h)
  exact ⟨hbus, hrem, hidx, hfail, hport, hused, hresult, fun x hmode1 hgain => himg x ⟨hmode1, hgain⟩⟩

/-! ### ENTRY in a slot -/

/-- What the end of an entry slot leaves unchanged (R146, R147). -/
theorem slotEnded_frame (s : State) (f : Option BatchFail) :
    (s.slotEnded f).busAddr = s.busAddr ∧ (s.slotEnded f).port = s.port ∧ (s.slotEnded f).answers = s.answers ∧
    ((s.slotEnded f).mode ≠ .idle → (s.slotEnded f).result = s.result) ∧ ∀ x, (s.slotEnded f).img x = s.img x := by
  by_cases h : s.batchRem = 1
  · rw [slotEnded_last h]
    exact ⟨rfl, rfl, rfl, fun hne => absurd rfl hne, img_reported _ _⟩
  · rw [slotEnded_more h]
    exact ⟨rfl, rfl, rfl, fun _ => rfl, fun _ => rfl⟩

/-- ENTRY in a slot waits in its transaction, or the slot has ended. -/
theorem busFrame_entry {a v : Byte} {s t : State} (hm : s.mode = .batch) (h : exec (.entry a v) s = .next t) :
    (s.BusFrame (LevelKeeps a) t ∧ t.mode = .exec) ∨ ∃ u f, s.BusFrame (LevelKeeps a) u ∧ t = u.slotEnded f := by
  cases (exec_entry_batch hm a v).symm.trans h
  cases hf : s.batchFail with
  | some f => exact .inr ⟨s, _, busFrame_refl _ s, entrySlot_latched hf _⟩
  | none =>
    cases hc : channelOf a with
    | none => exact .inr ⟨s, _, busFrame_refl _ s, (entrySlot_badChannel hf hc v).trans (latch_endEntry s _ _ _)⟩
    | some ch =>
      rw [entrySlot_level hf hc]
      obtain ⟨p, hans⟩ | ⟨r, rest, hans⟩ := draws_cases s.answers
      · exact .inl (busFrame_waits _ hans _)
      · exact .inr ⟨_, _, busFrame_returned hans fun x hx => leaves_levelWrite (hx ch hc) v _ r,
          busXact_entry hans rfl hf⟩

/-- Settles O34: its one transaction leaves every address but the PWM register, and the end of its slot leaves the rest. -/
theorem entryFrame : Obligations.EntryFrame := by
  unfold Obligations.EntryFrame
  intro a v s t hm h
  obtain ⟨hf, -⟩ | ⟨u, f, hf, rfl⟩ := busFrame_entry hm h
  · exact ⟨hf.busAddr, hf.port, hf.used, fun _ => hf.result, fun _ => ⟨hf.batchRem, hf.batchIdx, hf.batchFail⟩, hf.img⟩
  · obtain ⟨hbus, hport, hans, hresult, himg⟩ := slotEnded_frame u f
    exact ⟨hbus.trans hf.busAddr, hport.trans hf.port, hans.symm ▸ hf.used, fun hne => (hresult hne).trans hf.result,
      fun hexec => absurd hexec (slotEnded_mode_ne_exec u f), fun x hx => (himg x).trans (hf.img x hx)⟩

/-! ### A batch, slot by slot -/

/-- The word of a batch entry (R146). -/
def entryWord (e : Channel × Byte) : CmdWord := encode (.entry (BitVec.ofNat 8 e.1.val) e.2)

/-- What is observed of the transaction of a batch entry when all its calls are accepted (R150). -/
def entryEvents (addr : BusAddr) (e : Channel × Byte) : List Event :=
  transactionEvents addr [0x0A#8 + BitVec.ofNat 8 e.1.val, e.2] .ok

/-- The block in a batch, no transaction open, with `i` entry slots behind it, `n` to come and `f` latched (R24). -/
def State.inSlot (s : State) (i n : Nat) (f : Option BatchFail) : State :=
  { s with mode := .batch, xphase := none, xact := none, batchIdx := BitVec.ofNat 8 i, batchRem := BitVec.ofNat 8 n,
           batchFail := f }

theorem slotEnded_inSlot_one (s : State) (i : Nat) (g f : Option BatchFail) :
    (s.inSlot i 1 g).slotEnded f = (s.inSlot 0 0 none).reported (batchResult f) := slotEnded_last rfl f

theorem slotEnded_inSlot_succ (s : State) (i : Nat) {n : Nat} (hpos : 0 < n) (hmax : n ≤ 254) (g f : Option BatchFail) :
    (s.inSlot i (n + 1) g).slotEnded f = s.inSlot (i + 1) n f := by
  have hrem : BitVec.ofNat 8 (n + 1) - 1 = BitVec.ofNat 8 n := by
    rw [BitVec.ofNat_add]; exact BitVec.add_sub_cancel _ _
  have hidx : BitVec.ofNat 8 i + 1 = BitVec.ofNat 8 (i + 1) := (BitVec.ofNat_add i 1).symm
  have hmore : (s.inSlot i (n + 1) g).batchRem ≠ 1 := by
    refine BitVec.toNat_ne_iff_ne.mp ?_
    simp only [State.inSlot, BitVec.ofNat_eq_ofNat, BitVec.toNat_ofNat]
    omega
  rw [slotEnded_more hmore]
  simp only [State.inSlot, hrem, hidx]

/-- The block as the header left it before: outside a batch the invariant clears the batch registers (R24, R36). -/
theorem reported_inSlot_of_inv {s : State} (h : s.Inv) (hm : s.mode = .idle) (port : List CmdWord) (l : List Answer)
    (log : List Event) (v : BitVec 32) :
    (State.inSlot { s with port := port, answers := l, log := log } 0 0 none).reported v =
      State.reported { s with port := port, answers := l, log := log } v := by
  obtain ⟨hphase, hxact⟩ := quiet_of_inv h (by simp [hm])
  obtain ⟨hrem, hidx, hfail⟩ := h.batchCleared (not_inBatch_of_idle hm)
  simp only [State.reported, State.inSlot, hphase, hxact, hrem, hidx, hfail, BitVec.ofNat_eq_ofNat]

/-- A header of a non-empty batch consumed in IDLE (R145). -/
theorem step_batchHeader {s : State} {n : Nat} {ws : List CmdWord} (hm : s.mode = .idle) (hq : s.Quiet) (hpos : 0 < n)
    (hmax : n ≤ 255) (hp : s.port = encode (.setChannels (BitVec.ofNat 8 n)) :: ws) :
    step s = .next (State.inSlot { s with port := ws } 0 n none) := by
  have hn : BitVec.ofNat 8 n ≠ 0 := by
    refine BitVec.toNat_ne_iff_ne.mp ?_
    simp only [BitVec.ofNat_eq_ofNat, BitVec.toNat_ofNat]
    omega
  obtain ⟨hphase, hxact⟩ := hq
  rw [step_of_command ((cmdReady_iff s).mpr (.inl hm)) hp (decode_encode_setChannels _),
    exec_setChannels_idle (s := { s with port := ws }) hm hn]
  simp only [State.openBatch, State.inSlot, hphase, hxact, BitVec.ofNat_eq_ofNat]

theorem step_entryWord {s : State} {a v : Byte} {ws : List CmdWord} (i n : Nat) (f : Option BatchFail)
    (hp : s.port = encode (.entry a v) :: ws) :
    step (s.inSlot i n f) = exec (.entry a v) (State.inSlot { s with port := ws } i n f) :=
  step_of_command (s := s.inSlot i n f) rfl hp (decode_of_encode rfl rfl)

/-- The slot of a valid entry, with no failure latched, is its one transaction (R146). -/
theorem step_slot_transaction {s : State} {e : Channel × Byte} {ws : List CmdWord} {r : XactResult} {rest : List Answer}
    (i n : Nat) (hp : s.port = entryWord e :: ws) (hans : s.answers = drawsFor r ++ rest) :
    step (s.inSlot i n none) = .next (State.slotEnded
      (State.inSlot
        { s with port := ws, answers := rest,
                 log := s.log ++ transactionEvents s.busAddr [0x0A#8 + BitVec.ofNat 8 e.1.val, e.2] r } i n none)
      (transactionLatch (BitVec.ofNat 8 i) (0x0A#7 + BitVec.ofNat 7 e.1.val) r)) := by
  have hreg : (BitVec.ofNat 8 e.1.val).setWidth 7 = BitVec.ofNat 7 e.1.val :=
    BitVec.setWidth_ofNat_of_le (by decide) e.1.val
  have hlt : (BitVec.ofNat 8 e.1.val).toNat < 24 := by rw [BitVec.toNat_ofNat]; omega
  obtain ⟨-, hslot⟩ := entrySlot
  obtain ⟨-, hexec⟩ := hslot (BitVec.ofNat 8 e.1.val) e.2
  obtain ⟨-, -, htransaction⟩ := hexec (State.inSlot { s with port := ws } i n none) rfl
  rw [step_entryWord i n none hp, htransaction rfl hlt r rest hans, hreg]
  rfl

/-- A failing slot latches its cause, and the slot ends (R146). -/
theorem step_slot_failure {s : State} {w : CmdWord} {ws : List CmdWord} {draws rest : List Answer} {events : List Event}
    {cause : Cause} {phase : Option Phase} {regaddr : RegAddr} (i n : Nat)
    (hw : SlotFailure s.busAddr w draws events cause phase regaddr) (hp : s.port = w :: ws)
    (hans : s.answers = draws ++ rest) :
    step (s.inSlot i n none) = .next (State.slotEnded
      (State.inSlot { s with port := ws, answers := rest, log := s.log ++ events } i n none)
      (some ⟨BitVec.ofNat 8 i, cause, phase, regaddr⟩)) := by
  obtain ⟨hword, hslot⟩ := entrySlot
  cases hw with
  | notEntry w h =>
    obtain ⟨-, hnotEntry⟩ := hword (s.inSlot i n none) w ws rfl hp
    have hrest : s.answers = rest := hans
    rw [hnotEntry rfl h, List.append_nil, ← hrest]
    rfl
  | channel a v h =>
    obtain ⟨-, hexec⟩ := hslot a v
    obtain ⟨-, hinvalid, -⟩ := hexec (State.inSlot { s with port := ws } i n none) rfl
    have hrest : s.answers = rest := hans
    rw [step_entryWord i n none hp, hinvalid rfl h, List.append_nil, ← hrest]
    rfl
  | bus ch v p => exact step_slot_transaction (e := (ch, v)) i n hp hans

/-! ### A whole batch -/

/-- Valid entries whose calls are all accepted, with a slot to come after them. -/
theorem run_entries (es : List (Channel × Byte)) {s : State} {ws : List CmdWord} {rest : List Answer} (i m k : Nat)
    (hmax : es.length + (m + 1) ≤ 255) (hp : s.port = es.map entryWord ++ ws)
    (hans : s.answers = List.replicate (3 * es.length) .accepted ++ rest) :
    Sys2Proof.core.run (es.length + k) (s.inSlot i (es.length + (m + 1)) none) =
      Sys2Proof.core.run k (State.inSlot
        { s with port := ws, answers := rest, log := s.log ++ es.flatMap (entryEvents s.busAddr) }
        (i + es.length) (m + 1) none) := by
  induction es generalizing s i with
  | nil =>
    have hp' : s.port = ws := hp
    have hans' : s.answers = rest := hans
    subst hp' hans'
    simp
  | cons e es ih =>
    have hdraws : s.answers = drawsFor .ok ++ (List.replicate (3 * es.length) .accepted ++ rest) := by
      rw [hans, List.length_cons, Nat.mul_succ, Nat.add_comm, List.replicate_add, List.append_assoc]
      rfl
    have hlen : (e :: es).length + (m + 1) = es.length + (m + 1) + 1 := by rw [List.length_cons]; omega
    have hrun : (e :: es).length + k = es.length + k + 1 := by rw [List.length_cons]; omega
    rw [hlen] at hmax ⊢
    have hstep := step_slot_transaction i (es.length + (m + 1) + 1) hp hdraws
    rw [transactionLatch, slotEnded_inSlot_succ _ _ (by omega) (by omega)] at hstep
    rw [hrun, run_succ hstep, ih (i + 1) (by omega) rfl rfl, List.length_cons, Nat.add_right_comm i 1, List.flatMap_cons,
      ← List.append_assoc]
    rfl

/-- After a latched failure every word of the batch is discarded, and the last completes it (R147, R148). -/
theorem run_discards (after more : List CmdWord) {s : State} (i : Nat) (g : Option BatchFail) (f : BatchFail)
    (hmax : after.length + 1 ≤ 255) (hp : s.port = after ++ more) :
    Sys2Proof.core.run after.length ((s.inSlot i (after.length + 1) g).slotEnded (some f)) =
      .next ((State.inSlot { s with port := more } 0 0 none).reported (batchResult (some f))) := by
  induction after generalizing s i g with
  | nil =>
    have hp' : s.port = more := hp
    subst hp'
    exact congrArg Host.Outcome.next (slotEnded_inSlot_one s i g (some f))
  | cons w ws ih =>
    rw [List.length_cons] at hmax ⊢
    obtain ⟨hword, -⟩ := entrySlot
    obtain ⟨hdiscard, -⟩ := hword (s.inSlot (i + 1) (ws.length + 1) (some f)) w (ws ++ more) rfl hp
    rw [slotEnded_inSlot_succ _ _ (by omega) (by omega), run_succ (hdiscard f rfl)]
    exact ih (s := { s with port := ws ++ more }) (i + 1) (some f) (by omega) rfl

/-- A batch from its header to the slot after the entries of `es`. -/
theorem run_batch_entries (es : List (Channel × Byte)) {s : State} {ws : List CmdWord} {rest : List Answer} (m k : Nat)
    (h : s.Inv) (hm : s.mode = .idle) (hmax : es.length + (m + 1) ≤ 255)
    (hp : s.port = encode (.setChannels (BitVec.ofNat 8 (es.length + (m + 1)))) :: (es.map entryWord ++ ws))
    (hans : s.answers = List.replicate (3 * es.length) .accepted ++ rest) :
    Sys2Proof.core.run (es.length + k + 1) s =
      Sys2Proof.core.run k (State.inSlot
        { s with port := ws, answers := rest, log := s.log ++ es.flatMap (entryEvents s.busAddr) }
        es.length (m + 1) none) := by
  have hstep := step_batchHeader hm (quiet_of_inv h (by simp [hm])) (by omega) hmax hp
  have hentries := run_entries es (s := { s with port := es.map entryWord ++ ws }) 0 m k hmax rfl hans
  rw [Nat.zero_add] at hentries
  exact (run_succ hstep).trans hentries

/-- Settles O29: the header, the entries before the last, and the last, whose slot completes the batch. -/
theorem batchIssuesItsEntriesInOrder : Obligations.BatchIssuesItsEntriesInOrder := by
  unfold Obligations.BatchIssuesItsEntriesInOrder
  intro s es more rest hinv hm hmax hp hans
  obtain rfl | ⟨before, e, rfl⟩ := List.eq_nil_or_concat es
  · have hstep := step_of_command ((cmdReady_iff s).mpr (.inl hm)) hp (decode_encode_setChannels _)
    have hrest : s.answers = rest := hans
    rw [run_succ (hstep.trans (exec_setChannels_zero_idle (s := { s with port := more }) hm)), List.flatMap_nil,
      List.append_nil, ← hrest]
    rfl
  · rw [List.concat_eq_append] at hmax hp hans ⊢
    have hlen : (before ++ [e]).length = before.length + (0 + 1) := by simp
    rw [hlen] at hmax hp hans ⊢
    have hp' : s.port = encode (.setChannels (BitVec.ofNat 8 (before.length + (0 + 1)))) ::
        (before.map entryWord ++ entryWord e :: more) := by
      rw [hp, List.map_append, List.cons_append, List.append_assoc]; rfl
    have hans' : s.answers = List.replicate (3 * before.length) .accepted ++ (drawsFor .ok ++ rest) := by
      rw [hans, Nat.mul_add, List.replicate_add, List.append_assoc]; rfl
    refine (run_batch_entries before 0 1 hinv hm hmax hp' hans').trans ?_
    refine Eq.trans (run_succ (step_slot_transaction (r := .ok) before.length 1 rfl rfl)) ?_
    rw [slotEnded_inSlot_one, run_zero, reported_inSlot_of_inv hinv hm, List.flatMap_append, List.flatMap_singleton,
      ← List.append_assoc]
    rfl

/-- Settles O30: the header, the entries before the failing one, that one, and the discarded words after it. -/
theorem batchStopsAtFirstFailure : Obligations.BatchStopsAtFirstFailure := by
  unfold Obligations.BatchStopsAtFirstFailure
  intro s before w after more draws rest events cause phase regaddr hinv hm hmax hw hp hans
  have hlen : before.length + 1 + after.length = before.length + (after.length + 1) := by omega
  rw [hlen] at hmax hp ⊢
  have hp' : s.port = encode (.setChannels (BitVec.ofNat 8 (before.length + (after.length + 1)))) ::
      (before.map entryWord ++ (w :: (after ++ more))) := by
    rw [hp, List.append_assoc]; rfl
  rw [List.append_assoc] at hans
  refine (run_batch_entries before after.length (after.length + 1) hinv hm hmax hp' hans).trans ?_
  refine Eq.trans (run_succ (step_slot_failure before.length (after.length + 1) hw rfl rfl)) ?_
  rw [run_discards after more _ _ _ (by omega) rfl, reported_inSlot_of_inv hinv hm]
  rfl

end Sys2Proof.Machine

/-! # The current-to-gain converter (42_gain_converter.md)

The statements of 42_gain_converter.md: the gain code as a number on each side of MAX_CURRENT_MA, and the query that exposes
it. -/

namespace Sys2Proof.Machine

/-! ### The gain code -/

theorem convertCurrentToGain_of_ge {c : Byte} (h : 57 ≤ c.toNat) : convertCurrentToGain c = 255 := if_pos h

theorem convertCurrentToGain_of_lt {c : Byte} (h : c.toNat < 57) :
    convertCurrentToGain c = BitVec.ofNat 8 (c.toNat * 255 / 57) := if_neg (Nat.not_le.mpr h)

/-- The two paths of the converter as the byte of one number (R170). -/
theorem convertCurrentToGain_eq_ofNat (c : Byte) :
    convertCurrentToGain c = BitVec.ofNat 8 (if 57 ≤ c.toNat then 255 else c.toNat * 255 / 57) := by
  split
  next h => exact convertCurrentToGain_of_ge h
  next h => exact convertCurrentToGain_of_lt (Nat.not_le.mp h)

/-- The quotient of the path that does not saturate (R171). -/
theorem scaled_current_le {n : Nat} (h : n < 57) : n * 255 / 57 ≤ 250 := by omega

/-- The quotient fits in 8 bits, so the byte holds all of it (R171). -/
theorem convertCurrentToGain_toNat_of_lt {c : Byte} (h : c.toNat < 57) :
    (convertCurrentToGain c).toNat = c.toNat * 255 / 57 := by
  have hle := scaled_current_le h
  rw [convertCurrentToGain_of_lt h, BitVec.toNat_ofNat, Nat.mod_eq_of_lt (by omega)]

/-- No gain code is above that of a saturated current, and below saturation the quotient grows with the current (R172). -/
theorem convertCurrentToGain_mono {c d : Byte} (h : c.toNat ≤ d.toNat) :
    (convertCurrentToGain c).toNat ≤ (convertCurrentToGain d).toNat := by
  rcases Nat.lt_or_ge d.toNat 57 with hd | hd
  · rw [convertCurrentToGain_toNat_of_lt (h.trans_lt hd), convertCurrentToGain_toNat_of_lt hd]
    exact Nat.div_le_div_right (Nat.mul_le_mul_right 255 h)
  · rw [convertCurrentToGain_of_ge hd]
    exact Nat.le_of_lt_succ (convertCurrentToGain c).isLt

/-- Settles O15: below 57 mA the quotient is the code, from 57 mA the code is the greatest byte. -/
theorem gainCodeIsSaturatingFloor : Obligations.GainCodeIsSaturatingFloor := by
  unfold Obligations.GainCodeIsSaturatingFloor
  refine ⟨fun c hc => ?_, fun c => convertCurrentToGain_of_ge, fun c d => convertCurrentToGain_mono⟩
  have hcode := convertCurrentToGain_toNat_of_lt hc
  exact ⟨hcode, hcode.trans_le (scaled_current_le hc)⟩

/-! ### The query of the gain code -/

/-- The word of a command with the one operand `B`: `A` is part of its constant top (R71, R78). -/
theorem encode_qGainCode_eq (c : Byte) : encode (.qGainCode c) = 0xB00000#24 ++ c := by
  have htop : (0xB000#16 ++ 0x00#8 : BitVec 24) = 0xB00000#24 := by decide
  calc encode (.qGainCode c)
    _ = 0xB000#16 ++ (0x00#8 ++ c) := wordOf_eq_header_append (by decide) 0 c
    _ = (0xB000#16 ++ 0x00#8) ++ c := (BitVec.append_assoc (x₁ := 0xB000#16) (x₂ := 0x00#8) (x₃ := c)).symm
    _ = 0xB00000#24 ++ c := by rw [htop]

/-- Settles O22: the word is the command's encoding, and the command succeeds with the gain code. -/
theorem queryGainCode : Obligations.QueryGainCode := by
  unfold Obligations.QueryGainCode
  refine fun c => ⟨decode_of_encode rfl (encode_qGainCode_eq c), fun s hm => ?_⟩
  rw [exec_qGainCode_idle hm, succeed_eq, convertCurrentToGain_eq_ofNat]

end Sys2Proof.Machine

/-! # Exceptions (60_exceptions.md)

The statements of 60_exceptions.md: what raising an error writes, that no reachable state stops and a call that never
returns leaves the block where it is, and that every session is opened to BUS_ADDR. -/

namespace Sys2Proof.Machine

/-! ### Raising an error -/

/-- Settles O18: raising an error is the RESULT write of the fields that its kind records. -/
theorem raiseWritesResultAndGoesIdle : Obligations.RaiseWritesResultAndGoesIdle := by
  unfold Obligations.RaiseWritesResultAndGoesIdle
  exact fun s => ⟨raise_eq s .invalidChannel, fun a p => raise_eq s (.busTransactionFailed a p),
    fun f => raise_eq s (.partialBatchFailure f), raise_eq s .illegalCommand⟩

/-! ### A call that does not return -/

/-- With a call outstanding and no response drawn a step changes nothing (R217). -/
theorem step_of_unanswered {s : State} {x : Xact} {p : Phase} (h : s.outstanding = some (x, p))
    (hans : s.answers = []) : step s = .next s :=
  calc step s
    _ = .next s.drain := step_of_outstanding h
    _ = .next { s with answers := [] } := by rw [State.drain, hans, drainWith_nil]
    _ = .next s := by rw [← hans]

/-- A state that a step leaves as it is stays for ever. -/
theorem run_of_step_self {s : State} (h : step s = .next s) (n : Nat) : Sys2Proof.core.run n s = .next s := by
  induction n with
  | zero => exact run_zero s
  | succ n ih => exact (run_succ h).trans ih

/-- Settles O9: the waiting state is its own next state, and it is in EXEC. -/
theorem unansweredCallHangs : Obligations.UnansweredCallHangs := by
  unfold Obligations.UnansweredCallHangs
  intro s x p hmode hphase hxact hans n
  have hout : s.outstanding = some (x, p) := outstanding_eq_some.mpr ⟨hmode, hphase, hxact⟩
  exact ⟨run_of_step_self (step_of_unanswered hout hans) n, by simp [State.cmdReady, hmode]⟩

/-! ### No reachable state stops -/

theorem callInExec_of_inv {s : State} (h : s.Inv) : s.CallInExec := by
  intro hm
  obtain ⟨p, hp⟩ := Option.ne_none_iff_exists'.mp (h.phase.mp hm)
  obtain ⟨x, hx⟩ := Option.ne_none_iff_exists'.mp (h.xact.mp hm)
  simp [outstanding_eq_some.mpr ⟨hm, hp, hx⟩]

/-- The one fault of the model is that of EXEC with no call outstanding. -/
theorem step_answers {s : State} (h : s.CallInExec) : ∃ t, step s = .next t := by
  by_cases hm : s.mode = .exec
  · obtain ⟨⟨x, p⟩, hout⟩ := Option.ne_none_iff_exists'.mp (h hm)
    exact ⟨s.drain, step_of_outstanding hout⟩
  · obtain ⟨t, hstep, -⟩ := step_takes_word ((cmdReady_iff_ne_exec s).mpr hm)
    exact ⟨t, hstep⟩

/-- Settles O47: a reachable state meets the invariant, so a call is outstanding wherever it is in EXEC. -/
theorem reachableNeverStops : Obligations.ReachableNeverStops := by
  unfold Obligations.ReachableNeverStops
  exact fun s h => step_answers (callInExec_of_inv (inv_of_reachable h))

/-! ### The bus address of every session -/

/-- An event that, if it is a `TransportBegin`, has this address (R48). -/
def Event.OpensOnly (addr : BusAddr) (e : Event) : Prop := ∀ a r, e = .call (.transportBegin a) r → a = addr

/-- From `s` the block has come to `t` with the same BUS_ADDR, having opened sessions to that address only (R213). -/
structure State.OpensOwn (s t : State) : Prop where
  busAddr : t.busAddr = s.busAddr
  log : ∃ events, t.log = s.log ++ events ∧ ∀ e ∈ events, e.OpensOnly s.busAddr

@[simp] theorem opensOnly_xact (addr : BusAddr) (bytes : List Byte) (r : XactResult) :
    (Event.xact bytes r).OpensOnly addr := by simp [Event.OpensOnly]

@[simp] theorem opensOnly_result (addr : BusAddr) (v : BitVec 32) : (Event.result v).OpensOnly addr := by
  simp [Event.OpensOnly]

/-- A transaction opens its session to the address it is given and makes no other `TransportBegin` (R47, R48). -/
theorem opensOnly_callAt (x : Xact) (addr : BusAddr) (p : Phase) (r : Option Answer) :
    (Event.call (x.callAt addr p) r).OpensOnly addr := by
  rintro a r' h
  cases p with
  | callBegin => cases h; rfl
  | callWrite | callEnd => cases h

theorem opensOwn_of_log_eq {s t : State} (ha : t.busAddr = s.busAddr) (hl : t.log = s.log) : s.OpensOwn t :=
  ⟨ha, [], by simp [hl], by simp⟩

theorem opensOwn_of_event {s t : State} {e : Event} (ha : t.busAddr = s.busAddr) (hl : t.log = s.log ++ [e])
    (he : e.OpensOnly s.busAddr) : s.OpensOwn t :=
  ⟨ha, [e], hl, by simpa using he⟩

theorem opensOwn_trans {s t u : State} (hst : s.OpensOwn t) (htu : t.OpensOwn u) : s.OpensOwn u := by
  obtain ⟨hat, es, hlt, hes⟩ := hst
  obtain ⟨hau, es', hlu, hes'⟩ := htu
  rw [hat] at hau hes'
  exact ⟨hau, es ++ es', by rw [hlu, hlt, List.append_assoc], fun e he => (List.mem_append.mp he).elim (hes e) (hes' e)⟩

theorem opensOwn_complete (s : State) (f : ResultFields) : s.OpensOwn (s.complete f) :=
  opensOwn_of_event rfl (complete_log s f) (opensOnly_result _ _)

theorem opensOwn_endEntry (s : State) : s.OpensOwn s.endEntry := by
  by_cases h : s.batchRem = 1#8
  · rw [endEntry_last h]; exact opensOwn_of_event rfl rfl (opensOnly_result _ _)
  · rw [endEntry_more h]; exact opensOwn_of_log_eq rfl rfl

theorem opensOwn_latch_endEntry (s : State) (c : Cause) (p : Option Phase) (a : RegAddr) :
    s.OpensOwn (s.latch c p a).endEntry :=
  opensOwn_trans (t := s.latch c p a) (opensOwn_of_log_eq rfl rfl) (opensOwn_endEntry _)

/-- What the caller of `BusXact` does after its return opens no session itself. -/
theorem opensOwn_callerGoesOn (s : State) (x : Xact) (r : XactResult) : s.OpensOwn (s.callerGoesOn x r) := by
  cases r with
  | ok =>
    unfold State.callerGoesOn State.afterOk
    cases x.caller with
    | initMode g => exact opensOwn_of_log_eq rfl rfl
    | initGain | setChannel => exact opensOwn_complete s _
    | entry => exact opensOwn_endEntry s
  | fail p =>
    unfold State.callerGoesOn State.afterFail
    cases x.caller with
    | initMode _ | initGain | setChannel => exact opensOwn_complete s _
    | entry => exact opensOwn_latch_endEntry s _ _ _

theorem opensOwn_closeXact (s : State) (x : Xact) (r : XactResult) : s.OpensOwn (s.closeXact x r) :=
  opensOwn_trans (t := { s with xphase := none, xact := none, log := s.log ++ [.xact x.bytes r] })
    (opensOwn_of_event rfl rfl (opensOnly_xact _ x.bytes r)) (opensOwn_callerGoesOn _ x r)

/-- The one place where a call enters the observation. -/
theorem opensOwn_onAnswer (s : State) (x : Xact) (p : Phase) (r : Answer) : s.OpensOwn (s.onAnswer x p r) := by
  have hcall := opensOnly_callAt x s.busAddr p (some r)
  have closed (res : XactResult) :
      s.OpensOwn ((s.record (.call (x.callAt s.busAddr p) (some r))).closeXact x res) :=
    opensOwn_trans (t := s.record _) (opensOwn_of_event rfl rfl hcall) (opensOwn_closeXact _ x res)
  cases r with
  | failed => exact closed (.fail p)
  | accepted =>
    cases p with
    | callBegin | callWrite => exact opensOwn_of_event rfl rfl hcall
    | callEnd => exact closed .ok

theorem opensOwn_drainWith {s t : State} (h : s.OpensOwn t) (l : List Answer) : s.OpensOwn (t.drainWith l) :=
  drainWith_keeps (P := s.OpensOwn) (fun _ _ h => opensOwn_trans h (opensOwn_of_log_eq rfl rfl))
    (fun t x p r h _ => opensOwn_trans h (opensOwn_onAnswer t x p r)) l h

theorem opensOwn_busXact (s : State) (x : Xact) : s.OpensOwn (s.busXact x) :=
  opensOwn_drainWith (s := s) (t := s.openXact x) (opensOwn_of_log_eq rfl rfl) s.answers

theorem opensOwn_entrySlot (s : State) (e : Option (Byte × Byte)) : s.OpensOwn (s.entrySlot e) := by
  obtain ⟨-, heq⟩ | ⟨-, c, -, heq⟩ | ⟨-, a, v, ch, -, -, heq⟩ := entrySlot_cases s e
  · rw [heq]; exact opensOwn_endEntry s
  · rw [heq]; exact opensOwn_latch_endEntry s _ _ _
  · rw [heq]; exact opensOwn_busXact s _

theorem opensOwn_headerRun (s : State) {run : State → State} (h : HeaderRun run) : s.OpensOwn (run s) := by
  cases h with
  | complete f _ => exact opensOwn_complete s f
  | openBatch n _ => exact opensOwn_of_log_eq rfl rfl
  | busXact x _ _ => exact opensOwn_busXact s x

theorem step_opensOwn {s t : State} (h : step s = .next t) : s.OpensOwn t := by
  have taken (ws : List CmdWord) : s.OpensOwn { s with port := ws } := opensOwn_of_log_eq rfl rfl
  obtain ⟨-, -, rfl⟩ | ⟨-, w, ws, run, -, hrun, rfl⟩ | ⟨-, w, ws, e, -, rfl⟩ | ⟨-, x, p, -, rfl⟩ := step_by_mode h
  · exact opensOwn_of_log_eq rfl rfl
  · exact opensOwn_trans (taken ws) (opensOwn_headerRun _ hrun)
  · exact opensOwn_trans (taken ws) (opensOwn_entrySlot _ e)
  · exact opensOwn_drainWith (opensOwn_of_log_eq rfl rfl) s.answers

/-- Settles O49: whatever a step does, the calls it makes are those of a transaction, whose address is BUS_ADDR. -/
theorem stepAddressesOnlyBusAddr : Obligations.StepAddressesOnlyBusAddr := by
  unfold Obligations.StepAddressesOnlyBusAddr
  intro s t h
  obtain ⟨haddr, events, hlog, hevents⟩ := step_opensOwn h
  exact ⟨haddr, events, hlog, fun a r hmem => hevents _ hmem a r rfl⟩

end Sys2Proof.Machine

/-! # Reset (70_reset_and_hazards.md)

The statement of 70_reset_and_hazards.md: what a reset leaves of the block, of its observation and of the image. -/

namespace Sys2Proof.Machine

/-! ### The abandoned call -/

theorem abandonedCall_of_outstanding {s : State} {x : Xact} {p : Phase} (h : s.outstanding = some (x, p)) :
    s.abandonedCall = [.call (x.callAt s.busAddr p) none] := by rw [State.abandonedCall, h]

theorem abandonedCall_of_none {s : State} (h : s.outstanding = none) : s.abandonedCall = [] := by
  rw [State.abandonedCall, h]

/-- A reset observes no call or one call, and that one with no response (R232). -/
theorem abandonedCall_cases (s : State) : s.abandonedCall = [] ∨ ∃ c, s.abandonedCall = [.call c none] := by
  cases hout : s.outstanding with
  | none => exact .inl (abandonedCall_of_none hout)
  | some xp => exact .inr ⟨_, abandonedCall_of_outstanding hout⟩

/-! ### The image -/

/-- Whatever was known before, a reset leaves nothing known (R231). -/
theorem imageOf_append_reset (log : List Event) : imageOf (log ++ [.reset]) = [] := by
  rw [imageOf_append, List.foldl_cons, observe_reset, List.foldl_nil]

theorem img_applyReset (s : State) (a : Nat) : s.applyReset.img a = none := by
  have himage : s.applyReset.image = [] := imageOf_append_reset (s.log ++ s.abandonedCall)
  rw [State.img, himage]
  rfl

/-- Settles O43: before itself a reset adds the abandoned call alone, and the reset event empties the image. -/
theorem resetAbandonsCommand : Obligations.ResetAbandonsCommand := by
  unfold Obligations.ResetAbandonsCommand
  refine fun s => ⟨s.abandonedCall, rfl, fun x p hmode hphase hxact => ?_, fun hmode => ?_, ?_, fun v => ?_,
    img_applyReset s⟩
  · exact abandonedCall_of_outstanding (outstanding_eq_some.mpr ⟨hmode, hphase, hxact⟩)
  · exact abandonedCall_of_none (outstanding_none_of_mode hmode)
  · obtain h | ⟨c, h⟩ := abandonedCall_cases s <;> simp [h]
  · obtain h | ⟨c, h⟩ := abandonedCall_cases s <;> simp [h]

end Sys2Proof.Machine
